-- ==== Sys2Proof/Word.lean ====
section
/-! DEFINITION. The words of FIRE-CORE (spec/00_scope.md R9: every value is an unsigned integer of a stated width,
bit 0 the least significant). -/

namespace Sys2Proof

/-- One heat cell of `CUR` or `PREV` (R21, R22). -/
abbrev Byte := BitVec 8

/-- One register, command word, palette entry or pixel (R23, R24, section 4 of spec/10_state.md). -/
abbrev Word := BitVec 32

/-- A flat HOST address: `SPACE = A[26:24]`, `OFF = A[23:0]` (R50). -/
abbrev Addr := BitVec 27

end Sys2Proof
end

