-- ==== Sys2Proof/Syntax.lean ====
section
/-! DEFINITION. The command set (spec/30_encoding.md R81): one constructor per row of spec/opcode_table.json. No
command has an operand (R82). -/

namespace Sys2Proof

/-- The five commands of FIRE-CORE (R81). -/
inductive Instr where
  /-- `NOP`, no operation (R150). -/
  | nop
  /-- `STEP`, advance the heat field by one tick (R100). -/
  | step
  /-- `RENDER`, fill the framebuffer from the heat field (R135). -/
  | render
  /-- `TICK`, `STEP` then `RENDER` (R151). -/
  | tick
  /-- `CLEAR`, restore the start-up contents of the memories (R152). -/
  | clear
  deriving DecidableEq, Repr

end Sys2Proof
end

