-- ==== Sys2Proof/Decode.lean ====
section
/-! DEFINITION. The command decoder and the encoder (spec/30_encoding.md R80 to R84). -/

namespace Sys2Proof

/-- `RSV`, bits 31:4 of a command word (R80). -/
def rsvField (w : Word) : BitVec 28 := w.extractLsb' 4 28

/-- `OP`, bits 3:0 of a command word (R80). -/
def opField (w : Word) : BitVec 4 := w.extractLsb' 0 4

/-- Why a word is no command (R83). -/
inductive DecodeReject where
  /-- `RSV` is not zero, whatever `OP` is. -/
  | reservedBitsSet
  /-- `RSV` is zero and `OP` is in `0x5 .. 0xF`. -/
  | unassignedOpcode
  deriving DecidableEq, Repr

/-- The command a word selects (R81); every other word is rejected by name (R83). All 32 bits are compared. -/
def decode (w : Word) : Except DecodeReject Instr :=
  if rsvField w ≠ 0#28 then .error .reservedBitsSet
  else if opField w = 0x0#4 then .ok .nop
  else if opField w = 0x1#4 then .ok .step
  else if opField w = 0x2#4 then .ok .render
  else if opField w = 0x3#4 then .ok .tick
  else if opField w = 0x4#4 then .ok .clear
  else .error .unassignedOpcode

/-- `OP` of each command (R81). -/
def opcode : Instr → BitVec 4
  | .nop => 0x0#4
  | .step => 0x1#4
  | .render => 0x2#4
  | .tick => 0x3#4
  | .clear => 0x4#4

/-- The command word of format `C`: `RSV` zero above `OP` (R80, R81). -/
def encode (i : Instr) : Word := 0#28 ++ opcode i

/-- The decoder on a row of spec/opcode_table.json: a command is one 32-bit word (R84), so the table's bit numbers are
the word's own. -/
def decodeTableWord (nbits w : Nat) : Option Instr :=
  if nbits ≤ 32 ∧ w < 2 ^ 32 then (decode (BitVec.ofNat 32 w)).toOption else none

end Sys2Proof
end

