-- ==== Sys2Proof/Config.lean ====
section
/-! DEFINITION. The build parameters of the block (spec/00_scope.md R4): fixed when the block is built, changed by no
step. A machine carries its parameters in `State.cfg`, so that a statement over every state is a statement over every
admitted build (R6); log entry 1. The values of `CFG0` are in Sys2Proof/Machine/Build.lean. -/

namespace Sys2Proof

/-- The two palette sizes the spec admits (R5, R132). -/
inductive PalSize where
  | p64
  | p256
  deriving DecidableEq, Repr

/-- `P`, the number of palette entries (R4). -/
def PalSize.entries : PalSize → Nat
  | .p64 => 64
  | .p256 => 256

/-- The parameters of R4. Times (`LAT_STEP`, `LAT_RENDER`, `LAT_CLEAR`) are not here: R197 says that a model contains
no time. -/
structure Config where
  /-- `W`, grid width in cells. -/
  w : Nat
  /-- `H`, grid height in rows. -/
  h : Nat
  /-- `B`, bottom-band row count. -/
  b : Nat
  /-- `K`, brightening constant of the darkness removal. -/
  k : Byte
  /-- `T`, darkness threshold. -/
  t : Byte
  /-- `P`, palette size. -/
  p : PalSize
  /-- `PAL`, the palette ROM (R23). -/
  pal : List Word
  /-- `OOR_COLOR`, the colour of a heat value `>= P` (R133). -/
  oorColor : Word
  /-- `TICK_HZ`, informative: the rate the HOST paces ticks at; no rule reads it (R198). -/
  tickHz : Nat
  deriving DecidableEq, Repr

/-- `N = W*H`, the cell count (R4). -/
def Config.n (c : Config) : Nat := c.w * c.h

/-! The four channels of a colour word `{R, G, B, A}` (R130). -/

def redOf (c : Word) : Byte := c.extractLsb' 24 8
def greenOf (c : Word) : Byte := c.extractLsb' 16 8
def blueOf (c : Word) : Byte := c.extractLsb' 8 8
def alphaOf (c : Word) : Byte := c.extractLsb' 0 8

end Sys2Proof
end

