-- ==== Sys2Proof/Machine/Build.lean ====
section
/-! DEFINITION. The fixture palette (spec/41_palette_render.md R134) and the default build `CFG0` (spec/00_scope.md
R6). -/

namespace Sys2Proof.Machine

/-- A colour from its base channels: `{ 4*r, 4*g, 4*b, 0xFF }` (R130, R134). -/
def colourOfBase (r g b : Nat) : Word :=
  BitVec.ofNat 8 (4 * r) ++ BitVec.ofNat 8 (4 * g) ++ BitVec.ofNat 8 (4 * b) ++ 0xFF#8

/-- `PAL_FIXTURE[k]` (R134): black to red, red to yellow, yellow to near-white, plateau. -/
def fixtureColour (k : Nat) : Word :=
  let j := min k 63
  if j < 16 then colourOfBase (4 * j) 0 0
  else if j < 32 then colourOfBase 63 (4 * (j - 16)) 0
  else if j < 48 then colourOfBase 63 63 (4 * (j - 32))
  else colourOfBase 63 63 63

/-- `PAL_FIXTURE` with `P` entries (R134). -/
def palFixture (p : PalSize) : List Word := (List.range p.entries).map fixtureColour

/-- The default build `CFG0` (R6): `W=640, H=54, B=6, K=22, T=15, P=256, PAL=PAL_FIXTURE, OOR_COLOR=PAL[255]`, and
`TICK_HZ=20` (R4). -/
def cfg0 : Config where
  w := 640
  h := 54
  b := 6
  k := 22#8
  t := 15#8
  p := .p256
  pal := palFixture .p256
  oorColor := fixtureColour 255
  tickHz := 20

end Sys2Proof.Machine
end

