-- ==== Sys2Proof/Machine/State.lean ====
section
/-! DEFINITION. The state of FIRE-CORE as plain data (spec/10_state.md R20), the HOST's moves (spec/20_memory.md R51,
spec/70_reset_and_hazards.md R190) and the reset state (R35). -/

namespace Sys2Proof.Machine

/-! ### The HOST's side of the bus -/

/-- The transfer sizes of R51: 1, 2 or 4 bytes. -/
inductive Size where
  | one
  | two
  | four
  deriving DecidableEq, Repr

/-- An `8*n`-bit value (R51). -/
inductive Datum where
  | byte (v : BitVec 8)
  | half (v : BitVec 16)
  | word (v : BitVec 32)
  deriving DecidableEq, Repr

/-- A HOST transaction (R51): `MemRead(A, n)`, or `MemWrite(A, n, v)` whose `n` is the size of `v`. -/
inductive Transaction where
  | read (a : Addr) (n : Size)
  | write (a : Addr) (v : Datum)
  deriving DecidableEq, Repr

/-- The response line of a transaction (R51). -/
inductive Resp where
  | ok
  | err
  deriving DecidableEq, Repr

/-- What a transaction returns: `OK` or `ERR`, and for a read also data (R51). -/
structure Response where
  resp : Resp
  data : Option Datum
  deriving DecidableEq, Repr

/-- Whose move is next (R7, R85): the HOST asserts reset, the HOST makes a transaction, or the CORE is given the chance
to complete the command in flight (`COMPLETE` of the script notation). -/
inductive Turn where
  | reset
  | host (t : Transaction)
  | complete
  deriving DecidableEq, Repr

/-! ### Control state -/

/-- The commands that make the block busy: `OPR` 1 to 4 (R25, R154). -/
inductive CoreOp where
  | step
  | render
  | tick
  | clear
  deriving DecidableEq, Repr

/-- `BUSY` and `OPR` stored as one value, as R25 allows. -/
inductive Engine where
  /-- `BUSY = 0`. -/
  | idle
  /-- `BUSY = 1`, with the command in flight. -/
  | running (op : CoreOp)
  deriving DecidableEq, Repr

/-- The name of a sticky flag (R26). -/
inductive StickyFlag where
  /-- Illegal command word (R175). -/
  | ill
  /-- Command written while busy (R174). -/
  | ovr
  /-- Memory access while busy (R173). -/
  | acc
  /-- Malformed transaction (R172). -/
  | bad
  deriving DecidableEq, Repr

/-- The four sticky flags (R26). -/
structure Flags where
  ill : Bool
  ovr : Bool
  acc : Bool
  bad : Bool
  deriving DecidableEq, Repr

/-! ### Memory -/

/-- A memory of `w`-bit elements, sparse: (element index, value) pairs with indices strictly rising and no value equal
to what an unlisted index reads as (`Memory.wf` in Machine/Ops.lean). The element is the unit because no memory is ever
accessed at another width (R54): `Memory 8` is a list of `Host.Cell`. -/
abbrev Memory (w : Nat) := List (Nat × BitVec w)

/-- What an element that the list does not hold reads as: zero, the reset contents of all three memories (R35). -/
abbrev Memory.unlisted (w : Nat) : BitVec w := 0#w

/-! ### The state -/

/-- The state of the block (R20), with the build it is an example of (`cfg`), the moves still to be made (`schedule`)
and the response of the last transaction (`rsp`, the response port of R51 and R201). -/
structure State where
  /-- The build parameters, the palette ROM among them (R4, R23); no step changes them. -/
  cfg : Config
  /-- `CUR`, `N` cells of 8 bits (R21). -/
  cur : Memory 8
  /-- `PREV`, `N` cells of 8 bits (R22). -/
  prev : Memory 8
  /-- `FB`, `N` pixels of 32 bits (R24). -/
  fb : Memory 32
  /-- `BUSY` and `OPR` (R25). -/
  engine : Engine
  /-- `ILL`, `OVR`, `ACC`, `BAD` (R26). -/
  flags : Flags
  /-- The model's own: the interleaving of HOST and CORE steps still to come, first move first (R7; log entry 2). -/
  schedule : List Turn
  /-- The model's own: what the last HOST transaction returned (R51; log entry 3). -/
  rsp : Option Response
  deriving DecidableEq, Repr

/-- Reasons for which the machine stops with a fault: there are none. "No command raises an exception, a trap or a
fault in any state" (R170), and every transaction gets a response (R51). -/
inductive Fault
  deriving DecidableEq, Repr

/-- Reasons for which a step is not modelled. -/
inductive Refusal where
  /-- Raised by an arm of `exec` whose command has no meaning yet; safe. No arm raises it: all five are modelled. -/
  | notModelled (mnemonic : String)
  deriving DecidableEq, Repr

/-- The reset state of a build (R35, R190): memories zero, idle, flags clear. The palette and the constant registers are
the build's. No move is scheduled and no transaction has been answered. -/
def State.resetOf (c : Config) : State where
  cfg := c
  cur := []
  prev := []
  fb := []
  engine := .idle
  flags := { ill := false, ovr := false, acc := false, bad := false }
  schedule := []
  rsp := none

/-- The machine right after reset, in the default build `CFG0` (R6, R35). -/
def State.reset : State := State.resetOf cfg0

end Sys2Proof.Machine
end

