-- ==== Sys2Proof/Machine/Flags.lean ====
section
/-! DEFINITION. The sticky flags and the registers' words (spec/10_state.md R25 to R32). -/

namespace Sys2Proof.Machine

/-- No flag set: the reset value (R35). -/
def Flags.clear : Flags := { ill := false, ovr := false, acc := false, bad := false }

/-- Set one flag; a set flag stays set (R26, R179). -/
def Flags.set (f : StickyFlag) (fl : Flags) : Flags :=
  match f with
  | .ill => { fl with ill := true }
  | .ovr => { fl with ovr := true }
  | .acc => { fl with acc := true }
  | .bad => { fl with bad := true }

/-- Read one flag. -/
def Flags.get (f : StickyFlag) (fl : Flags) : Bool :=
  match f with
  | .ill => fl.ill
  | .ovr => fl.ovr
  | .acc => fl.acc
  | .bad => fl.bad

/-- `BUSY` (R25). -/
def Engine.busy : Engine → Bool
  | .idle => false
  | .running _ => true

/-- The command a `CoreOp` stands for (R154). -/
def CoreOp.instr : CoreOp → Instr
  | .step => .step
  | .render => .render
  | .tick => .tick
  | .clear => .clear

/-- The command in flight that an accepted command becomes; `NOP` becomes none (R153). -/
def CoreOp.ofInstr : Instr → Option CoreOp
  | .nop => none
  | .step => some .step
  | .render => some .render
  | .tick => some .tick
  | .clear => some .clear

/-- The value of the 3-bit `OPR` (R25, R154). -/
def CoreOp.opr : CoreOp → BitVec 3
  | .step => 1#3
  | .render => 2#3
  | .tick => 3#3
  | .clear => 4#3

/-- `BUSY` of the block. -/
def State.busy (s : State) : Bool := s.engine.busy

/-- `REG.ID` (R27). -/
def idWord : Word := 0x46495245#32

/-- `REG.STATUS` (R29): `BUSY` in bit 0, `ILL`, `OVR`, `ACC`, `BAD` in bits 1 to 4, bits 31:5 zero. -/
def statusWord (busy : Bool) (fl : Flags) : Word :=
  0#27 ++ BitVec.ofBool fl.bad ++ BitVec.ofBool fl.acc ++ BitVec.ofBool fl.ovr ++ BitVec.ofBool fl.ill ++
    BitVec.ofBool busy

/-- `REG.DIM` (R30): `W` in bits 15:0, `H` in bits 31:16. -/
def dimWord (c : Config) : Word := BitVec.ofNat 16 c.h ++ BitVec.ofNat 16 c.w

/-- `REG.PARAM` (R31): `B` in bits 7:0, `K` in 15:8, `T` in 23:16, `PSEL` in bit 24, bits 31:25 zero. -/
def paramWord (c : Config) : Word :=
  0#7 ++ BitVec.ofBool (c.p == .p256) ++ c.t ++ c.k ++ BitVec.ofNat 8 c.b

end Sys2Proof.Machine
end

