-- ==== Sys2Proof/Machine/Operands.lean ====
section
/-! DEFINITION. Where an access goes: the helper functions of spec/00_scope.md R11, the address map of spec/20_memory.md
R50, and what a HOST transaction resolves to (R52, R53, R55). -/

namespace Sys2Proof.Machine

/-! ### Helper functions (R11) -/

/-- `idx(r, c) = r*W + c`. -/
def idx (c : Config) (r col : Nat) : Nat := r * c.w + col

/-- `row(i) = i div W`. -/
def row (c : Config) (i : Nat) : Nat := i / c.w

/-- `col(i) = i mod W`. -/
def col (c : Config) (i : Nat) : Nat := i % c.w

/-- `interior(r, c)`: the cells `STEP` computes (R102). -/
def interior (c : Config) (r col : Nat) : Bool := 1 ≤ r && r + 2 ≤ c.h && 1 ≤ col && col + 2 ≤ c.w

/-- The cell at index `i` is interior. -/
def interiorAt (c : Config) (i : Nat) : Bool := interior c (row c i) (col c i)

/-- `inBand(r)`: the `B` bottommost rows. -/
def inBand (c : Config) (r : Nat) : Bool := c.h ≤ r + c.b

/-- `nsum(M, i)`: the sum of the eight neighbours, each zero-extended to 11 bits (R103). The memory is given by its
read function. -/
def nsum (c : Config) (rd : Nat → Byte) (i : Nat) : BitVec 11 :=
  (rd (i - c.w - 1)).zeroExtend 11 + (rd (i - c.w)).zeroExtend 11 + (rd (i - c.w + 1)).zeroExtend 11 +
    (rd (i - 1)).zeroExtend 11 + (rd (i + 1)).zeroExtend 11 +
    (rd (i + c.w - 1)).zeroExtend 11 + (rd (i + c.w)).zeroExtend 11 + (rd (i + c.w + 1)).zeroExtend 11

/-- `PAL[k]`. An admitted build has exactly `P` entries (R5), so the default is never read. -/
def palAt (c : Config) (k : Nat) : Word := c.pal.getD k 0#32

/-- `color(v)` (R133): the palette entry, or `OOR_COLOR` for a heat value `>= P`. -/
def color (c : Config) (v : Byte) : Word := if v.toNat < c.p.entries then palAt c v.toNat else c.oorColor

/-! ### The address map (R50) -/

/-- The five assigned spaces. -/
inductive Space where
  | reg
  | pal
  | cur
  | prev
  | fb
  deriving DecidableEq, Repr

/-- `SPACE = A[26:24]`; 5, 6 and 7 are unassigned (R50). -/
def spaceOf (a : Addr) : Option Space :=
  if a.extractLsb' 24 3 = 0#3 then some .reg
  else if a.extractLsb' 24 3 = 1#3 then some .pal
  else if a.extractLsb' 24 3 = 2#3 then some .cur
  else if a.extractLsb' 24 3 = 3#3 then some .prev
  else if a.extractLsb' 24 3 = 4#3 then some .fb
  else none

/-- `OFF = A[23:0]` (R50). -/
def offOf (a : Addr) : Nat := (a.extractLsb' 0 24).toNat

/-- The six registers (R27 to R32). -/
inductive Reg where
  | id
  | cmd
  | status
  | dim
  | param
  | oorColor
  deriving DecidableEq, Repr

/-- The register at an offset of space `REG`; the others hold none (R32, R53). -/
def regAt (off : Nat) : Option Reg :=
  if off = 0x00 then some .id
  else if off = 0x04 then some .cmd
  else if off = 0x08 then some .status
  else if off = 0x0C then some .dim
  else if off = 0x10 then some .param
  else if off = 0x14 then some .oorColor
  else none

/-- What a well-formed read reads: a register or one element of a memory. -/
inductive Place where
  | reg (r : Reg)
  | pal (k : Nat)
  | cur (i : Nat)
  | prev (i : Nat)
  | fb (i : Nat)
  deriving DecidableEq, Repr

/-- What a well-formed write writes: the read-only places are not among them (R55). -/
inductive Sink where
  | cmd
  | cur (i : Nat)
  | prev (i : Nat)
  | fb (i : Nat)
  deriving DecidableEq, Repr

/-- A place in a memory, whose access is refused while busy (R56). -/
def Place.inMemory : Place → Bool
  | .reg _ => false
  | .pal _ | .cur _ | .prev _ | .fb _ => true

/-- A sink in a memory (R56). -/
def Sink.inMemory : Sink → Bool
  | .cmd => false
  | .cur _ | .prev _ | .fb _ => true

/-- The element of a space of `count` 32-bit elements at a byte offset: an aligned 4-byte transfer in range
(R52, R53). -/
def wordElement (off count : Nat) (n : Size) : Option Nat :=
  if n = .four ∧ off % 4 = 0 ∧ off < 4 * count then some (off / 4) else none

/-- The element of a space of `count` 8-bit elements at a byte offset: a 1-byte transfer in range (R52, R53). -/
def byteElement (off count : Nat) (n : Size) : Option Nat :=
  if n = .one ∧ off < count then some off else none

/-- The place that an access of `n` bytes at `A` names; none if it is malformed (R52, R53). -/
def placeOf (c : Config) (a : Addr) (n : Size) : Option Place :=
  match spaceOf a with
  | some .reg => if n = .four then (regAt (offOf a)).map .reg else none
  | some .pal => (wordElement (offOf a) c.p.entries n).map .pal
  | some .cur => (byteElement (offOf a) c.n n).map .cur
  | some .prev => (byteElement (offOf a) c.n n).map .prev
  | some .fb => (wordElement (offOf a) c.n n).map .fb
  | none => none

/-- The sink of a place: `PAL` and every register but `REG.CMD` are read-only (R55). -/
def Place.sink : Place → Option Sink
  | .reg .cmd => some .cmd
  | .cur i => some (.cur i)
  | .prev i => some (.prev i)
  | .fb i => some (.fb i)
  | .reg _ | .pal _ => none

/-- The sink that a write of `n` bytes at `A` names; none if it is malformed (R52, R53, R55). -/
def sinkOf (c : Config) (a : Addr) (n : Size) : Option Sink := (placeOf c a n).bind Place.sink

/-! ### Data of a transaction (R51) -/

/-- The size of a datum. -/
def Datum.size : Datum → Size
  | .byte _ => .one
  | .half _ => .two
  | .word _ => .four

/-- The datum on a 32-bit data line, upper bits zero (R201). -/
def Datum.line : Datum → Word
  | .byte v => v.zeroExtend 32
  | .half v => v.zeroExtend 32
  | .word v => v

/-- The data 0 that a refused read of this size returns (R171). -/
def Datum.zero : Size → Datum
  | .one => .byte 0#8
  | .two => .half 0#16
  | .four => .word 0#32

/-- The flat address of a transaction. -/
def Transaction.addr : Transaction → Addr
  | .read a _ => a
  | .write a _ => a

/-- The transfer size of a transaction. -/
def Transaction.size : Transaction → Size
  | .read _ n => n
  | .write _ v => v.size

/-- R51's `malformed(A, n, kind)` (R52, R53, R55). -/
def malformed (c : Config) : Transaction → Bool
  | .read a n => (placeOf c a n).isNone
  | .write a v => (sinkOf c a v.size).isNone

end Sys2Proof.Machine
end

