-- ==== Sys2Proof/Machine/Ops.lean ====
section
/-! DEFINITION. The shared operations: the sparse memory, the answer to a HOST transaction, the refusal (the only
exception-like event of this hardware, spec/60_exceptions.md R171), acceptance and completion of a command
(spec/42_control_commands.md R153, R154), and reset (spec/70_reset_and_hazards.md R190). -/

namespace Sys2Proof.Machine

/-! ### Memory -/

/-- The canonical form of a memory of `n` elements: indices strictly rising and below `n`, no listed element equal to
what an unlisted one reads as. -/
abbrev Memory.wf {w : Nat} (n : Nat) (m : Memory w) : Prop :=
  m.Pairwise (fun x y => x.1 < y.1) ∧ ∀ e ∈ m, e.2 ≠ Memory.unlisted w ∧ e.1 < n

/-- `M[i]` (R10). -/
def Memory.read {w : Nat} : Memory w → Nat → BitVec w
  | [], _ => Memory.unlisted w
  | (k, v) :: rest, i => if k = i then v else Memory.read rest i

/-- Forget element `i`, which then reads as an unlisted element does. -/
def Memory.forget {w : Nat} (m : Memory w) (i : Nat) : Memory w := m.filter (fun e => e.1 != i)

/-- List element `i` at its place in the rising order. -/
def Memory.place {w : Nat} (i : Nat) (v : BitVec w) : Memory w → Memory w
  | [] => [(i, v)]
  | (k, x) :: rest => if i < k then (i, v) :: (k, x) :: rest else (k, x) :: Memory.place i v rest

/-- `M[i] <- v` (R10). -/
def Memory.write {w : Nat} (m : Memory w) (i : Nat) (v : BitVec w) : Memory w :=
  if v = Memory.unlisted w then m.forget i else Memory.place i v (m.forget i)

/-- The entry for element `i`, if its value is listed at all. -/
def Memory.entry {w : Nat} (i : Nat) (v : BitVec w) : Option (Nat × BitVec w) :=
  if v = Memory.unlisted w then none else some (i, v)

/-- The memory of `n` elements whose element `i` is `f i`: every element written once, in one pass. -/
def Memory.tabulate {w : Nat} (n : Nat) (f : Nat → BitVec w) : Memory w :=
  (List.range n).filterMap fun i => Memory.entry i (f i)

/-- The first `n` elements as an array, so that a pass over all cells reads each in one step. -/
def Memory.dense {w : Nat} (n : Nat) (m : Memory w) : Array (BitVec w) :=
  m.foldr (fun e a => a.setIfInBounds e.1 e.2) (Array.replicate n (Memory.unlisted w))

/-- Element `i` of a dense copy. -/
def denseRead {w : Nat} (a : Array (BitVec w)) (i : Nat) : BitVec w := a.getD i (Memory.unlisted w)

/-! ### The answer to a transaction (R51) -/

/-- Respond `OK` to a write. -/
def respondOk (s : State) : State := { s with rsp := some { resp := .ok, data := none } }

/-- Respond `OK` to a read, with its data. -/
def respondData (v : Datum) (s : State) : State := { s with rsp := some { resp := .ok, data := some v } }

/-- What a refused transaction returns: `ERR`, and data 0 if it is a read (R171). -/
def refusalResponse : Transaction → Response
  | .read _ n => { resp := .err, data := some (Datum.zero n) }
  | .write _ _ => { resp := .err, data := none }

/-- `refuse <FLAG>` (R10, R171): respond `ERR`, set the named sticky flag, change nothing else. -/
def refuse (f : StickyFlag) (t : Transaction) (s : State) : State :=
  { s with flags := s.flags.set f, rsp := some (refusalResponse t) }

/-! ### The life of a command (R153, R154) -/

/-- Acceptance of a command other than `NOP`: `BUSY <- 1; OPR <- w[2:0]` (R153). -/
def accept (op : CoreOp) (s : State) : State := { s with engine := .running op }

/-- The end of a completion: `BUSY <- 0` (R154). -/
def finish (s : State) : State := { s with engine := .idle }

/-! ### Reset (R190) -/

/-- Assert reset: the reset state of the same build, whatever was in flight (R190, R192). The moves that the HOST still
has to make are not the block's state and stay. -/
def assertReset (s : State) : State := { State.resetOf s.cfg with schedule := s.schedule }

/-- The move at the head of the schedule is taken off it. -/
def dropTurn (s : State) : State := { s with schedule := s.schedule.tail }

end Sys2Proof.Machine
end

