-- ==== Sys2Proof/Machine/Heat.lean ====
section
/-! DEFINITION. The heat-diffusion engine and the command `STEP` (spec/40_heat_step.md R100 to R110). -/

namespace Sys2Proof.Machine

/-- Cooling (R105): decrement modulo 256 when the two low bits of the sum are zero and the average is not 0 or the row
is in the band. -/
def cool (band : Bool) (sum : BitVec 11) (v : Byte) : Byte :=
  if sum.extractLsb' 0 2 = 0#2 ∧ (v ≠ 0#8 ∨ band = true) then v - 1#8 else v

/-- Darkness removal (R106): in the band, a value below `T` becomes `K - v` modulo 256. -/
def brighten (c : Config) (band : Bool) (v : Byte) : Byte :=
  if band = true ∧ v.toNat < c.t.toNat then c.k - v else v

/-- The value stored for a cell with this neighbour sum (R104 to R106): the average is `sum[10:3]`. -/
def cellOfSum (c : Config) (band : Bool) (sum : BitVec 11) : Byte :=
  brighten c band (cool band sum (sum.extractLsb' 3 8))

/-- The value computed for the cell at index `i` from the previous field (R103 to R106). -/
def cellValue (c : Config) (rd : Nat → Byte) (i : Nat) : Byte :=
  cellOfSum c (inBand c (row c i)) (nsum c rd i)

/-- Phase 1 of `STEP`: the interior cells of `CUR` computed from `PREV`, the border cells kept (R102, R107, R108). The
cell order does not matter (R64); Machine/Loops.lean has the pseudocode's loops. -/
def computePhase (c : Config) (prev cur : Memory 8) : Memory 8 :=
  let p := prev.dense c.n
  let u := cur.dense c.n
  Memory.tabulate c.n fun i => if interiorAt c i then cellValue c (denseRead p) i else denseRead u i

/-- Phase 2 of `STEP`: `PREV[j] <- CUR[j + W]` for `0 <= j < N - W`, the bottom row of `PREV` kept (R109, R110). -/
def scrollPhase (c : Config) (cur prev : Memory 8) : Memory 8 :=
  let u := cur.dense c.n
  let p := prev.dense c.n
  Memory.tabulate c.n fun j => if j + c.w < c.n then denseRead u (j + c.w) else denseRead p j

/-- The effect of `STEP` on the memories: compute, then scroll the values just computed (R101). -/
def heatStep (s : State) : State :=
  let cur' := computePhase s.cfg s.prev s.cur
  { s with cur := cur', prev := scrollPhase s.cfg cur' s.prev }

/-- `STEP` (R100), applied at its completion (R154). -/
def execStep (s : State) : Host.Outcome State Fault Refusal := .next (finish (heatStep s))

end Sys2Proof.Machine
end

