-- ==== Sys2Proof/Machine/Render.lean ====
section
/-! DEFINITION. The palette stage, the framebuffer writer and the command `RENDER` (spec/41_palette_render.md R135 to
R137). -/

namespace Sys2Proof.Machine

/-- `FB[i] <- color(CUR[i - W])` for `W <= i < N`; row 0 of `FB` keeps what it held (R136, R137). -/
def renderPhase (c : Config) (cur : Memory 8) (fb : Memory 32) : Memory 32 :=
  let u := cur.dense c.n
  let f := fb.dense c.n
  Memory.tabulate c.n fun i => if c.w ≤ i then color c (denseRead u (i - c.w)) else denseRead f i

/-- The effect of `RENDER` on the memories. -/
def renderFrame (s : State) : State := { s with fb := renderPhase s.cfg s.cur s.fb }

/-- `RENDER` (R135), applied at its completion (R154). -/
def execRender (s : State) : Host.Outcome State Fault Refusal := .next (finish (renderFrame s))

end Sys2Proof.Machine
end

