-- ==== Sys2Proof/Machine/Control.lean ====
section
/-! DEFINITION. The commands `NOP`, `TICK` and `CLEAR` (spec/42_control_commands.md R150 to R152). -/

namespace Sys2Proof.Machine

/-- `NOP` (R150): no memory, flag or register changes. -/
def execNop (s : State) : Host.Outcome State Fault Refusal := .next s

/-- `TICK` (R151): `STEP`, then `RENDER` on the `CUR` that `STEP` has just written, in one completion. -/
def execTick (s : State) : Host.Outcome State Fault Refusal := .next (finish (renderFrame (heatStep s)))

/-- The effect of `CLEAR`: every cell of `CUR` and `PREV` and every pixel of `FB` is zero (R152). -/
def clearMemories (s : State) : State := { s with cur := [], prev := [], fb := [] }

/-- `CLEAR` (R152); the sticky flags stay. -/
def execClear (s : State) : Host.Outcome State Fault Refusal := .next (finish (clearMemories s))

end Sys2Proof.Machine
end

