-- ==== Sys2Proof/Machine/Dispatch.lean ====
section
/-! DEFINITION. The meaning of each command: its effect, as R154 applies it in one atomic step. -/

namespace Sys2Proof.Machine

/-- The effect of a command on the state (R100, R135, R150, R151, R152). -/
def exec (i : Instr) (s : State) : Host.Outcome State Fault Refusal :=
  match i with
  | .nop => Sys2Proof.Machine.execNop s
  | .step => Sys2Proof.Machine.execStep s
  | .render => Sys2Proof.Machine.execRender s
  | .tick => Sys2Proof.Machine.execTick s
  | .clear => Sys2Proof.Machine.execClear s

end Sys2Proof.Machine
end

