-- ==== Sys2Proof/Machine/Bus.lean ====
section
/-! DEFINITION. HOST transactions (spec/20_memory.md R51), the handling of a command write
(spec/42_control_commands.md R153), the CORE's step (R154), and the moves of both agents (spec/00_scope.md R7). -/

namespace Sys2Proof.Machine

/-- The value of a register (R27 to R32); `REG.CMD` reads 0 (R28). -/
def readReg (s : State) : Reg → Word
  | .id => idWord
  | .cmd => 0#32
  | .status => statusWord s.busy s.flags
  | .dim => dimWord s.cfg
  | .param => paramWord s.cfg
  | .oorColor => s.cfg.oorColor

/-- The value read at a place, at the place's own width (R51, R52). -/
def readPlace (s : State) : Place → Datum
  | .reg r => .word (readReg s r)
  | .pal k => .word (palAt s.cfg k)
  | .cur i => .byte (s.cur.read i)
  | .prev i => .byte (s.prev.read i)
  | .fb i => .word (s.fb.read i)

/-- `MemRead(A, n)` (R51): `BAD` if malformed, `ACC` if a memory is read while busy, else the data. Nothing else changes
(R58). -/
def memRead (a : Addr) (n : Size) (s : State) : State :=
  match placeOf s.cfg a n with
  | none => refuse .bad (.read a n) s
  | some p => if p.inMemory && s.busy then refuse .acc (.read a n) s else respondData (readPlace s p) s

/-- The command `i` is accepted (R153): `NOP` has its effect at once and leaves the block idle, the others start the
engine. The write responds `OK`. -/
def startCommand (i : Instr) (s : State) : Host.Outcome State Fault Refusal :=
  match CoreOp.ofInstr i with
  | none => exec i (respondOk s)
  | some op => .next (accept op (respondOk s))

/-- A well-formed write of the word `w` to `REG.CMD` by the transaction `t` (R153): `OVR` while busy, without decoding;
`ILL` for an illegal word; else the command is accepted. -/
def commandWrite (t : Transaction) (w : Word) (s : State) : Host.Outcome State Fault Refusal :=
  match s.engine with
  | .running _ => .next (refuse .ovr t s)
  | .idle =>
    match decode w with
    | .error _ => .next (refuse .ill t s)
    | .ok i => startCommand i s

/-- A write to a sink of the value on the data line: exactly the value given is stored (R55). -/
def storeSink (t : Transaction) (v : Word) (s : State) : Sink → Host.Outcome State Fault Refusal
  | .cmd => commandWrite t v s
  | .cur i => .next (respondOk { s with cur := s.cur.write i (v.truncate 8) })
  | .prev i => .next (respondOk { s with prev := s.prev.write i (v.truncate 8) })
  | .fb i => .next (respondOk { s with fb := s.fb.write i v })

/-- `MemWrite(A, n, v)` (R51): `BAD` if malformed, `ACC` if a memory is written while busy, else the write. -/
def memWrite (a : Addr) (v : Datum) (s : State) : Host.Outcome State Fault Refusal :=
  match sinkOf s.cfg a v.size with
  | none => .next (refuse .bad (.write a v) s)
  | some k =>
    if k.inMemory && s.busy then .next (refuse .acc (.write a v) s) else storeSink (.write a v) v.line s k

/-- One HOST transaction (R51). -/
def hostTransaction (t : Transaction) (s : State) : Host.Outcome State Fault Refusal :=
  match t with
  | .read a n => .next (memRead a n s)
  | .write a v => memWrite a v s

/-- The CORE's turn (R154): its only step is the completion of the command in flight; while idle it has none. -/
def coreTurn (s : State) : Host.Outcome State Fault Refusal :=
  match s.engine with
  | .idle => .next s
  | .running op => exec op.instr s

/-- One move of either agent (R7). -/
def takeTurn (t : Turn) (s : State) : Host.Outcome State Fault Refusal :=
  match t with
  | .reset => .next (assertReset s)
  | .host x => hostTransaction x s
  | .complete => coreTurn s

/-- The move at the head of the schedule is taken. With no move left the HOST has no further step: a command in flight
still completes (R155), and an idle block waits, keeping all state (R183, R199). -/
def nextMove (s : State) : Host.Outcome State Fault Refusal :=
  match s.schedule with
  | [] => coreTurn s
  | t :: _ => takeTurn t (dropTurn s)

/-- The address of `REG.CMD` (R28, R85). -/
def cmdAddr : Addr := 0x0000004#27

/-- The HOST's write of a command word (R85 `CMDW`). -/
def commandTurn (w : Word) : Turn := .host (.write cmdAddr (.word w))

/-- `s` about to run the command word `w`: the word of a command that makes the block busy stands accepted in `OPR` with
the CORE to move; any other word stands as the HOST's next write to `REG.CMD` on an idle block. The response port shows
the `OK` of the accepted write (R153). -/
def aboutToRun (w : Word) (s : State) : State :=
  match (decode w).toOption.bind CoreOp.ofInstr with
  | some op => { accept op (respondOk s) with schedule := [] }
  | none => { finish s with schedule := [commandTurn w] }

end Sys2Proof.Machine
end

