-- ==== Sys2Proof/Machine/Step.lean ====
section
/-! DEFINITION. One step of the machine: one atomic move of the HOST or of the CORE (spec/00_scope.md R7). -/

namespace Sys2Proof.Machine

/-- The next move of the interleaving. -/
def step (s : State) : Host.Outcome State Fault Refusal := nextMove s

/-- `s` with the command word `w` where the next step takes its command from (log entry 4). -/
def State.withFetchWord (s : State) (nbits w : Nat) : State :=
  aboutToRun (BitVec.ofNat 32 (w % 2 ^ nbits)) s

end Sys2Proof.Machine
end

