-- ==== Sys2Proof/Machine/Loops.lean ====
section
/-! DEFINITION. The commands' pseudocode as loops that visit one cell at a time, in any order (spec/40_heat_step.md R100,
spec/41_palette_render.md R135, spec/42_control_commands.md R152). The meanings of Heat.lean, Render.lean and Control.lean
write each phase in one pass; R64 says that the visiting order does not matter, and statements compare the two. -/

namespace Sys2Proof.Machine

/-- `for x in order: M[dst x] <- val x`. -/
def forEach {α : Type} {w : Nat} (order : List α) (dst : α → Nat) (val : α → BitVec w) (m : Memory w) : Memory w :=
  order.foldl (fun m x => m.write (dst x) (val x)) m

/-- The cells of phase 1 of `STEP` in the pseudocode's order: `r in 1 .. H-2`, `c in 1 .. W-2` (R100, R102). -/
def interiorCells (c : Config) : List (Nat × Nat) :=
  ((List.range (c.h - 1)).drop 1).flatMap fun r => ((List.range (c.w - 1)).drop 1).map fun k => (r, k)

/-- The cells of phase 2 of `STEP` in the pseudocode's order: `r in 0 .. H-2`, `c in 0 .. W-1` (R100, R109). -/
def scrollCells (c : Config) : List (Nat × Nat) :=
  (List.range (c.h - 1)).flatMap fun r => (List.range c.w).map fun k => (r, k)

/-- The pixels of `RENDER` in the pseudocode's order: `i in W .. N-1` (R135). -/
def renderCells (c : Config) : List Nat := (List.range c.n).drop c.w

/-- Phase 1 of `STEP` in a given visiting order: `CUR[i] <- v`. -/
def computeLoop (c : Config) (order : List (Nat × Nat)) (prev cur : Memory 8) : Memory 8 :=
  forEach order (fun x => idx c x.1 x.2) (fun x => cellOfSum c (inBand c x.1) (nsum c prev.read (idx c x.1 x.2))) cur

/-- Phase 2 of `STEP` in a given visiting order: `PREV[idx(r, c)] <- CUR[idx(r+1, c)]`. -/
def scrollLoop (c : Config) (order : List (Nat × Nat)) (cur prev : Memory 8) : Memory 8 :=
  forEach order (fun x => idx c x.1 x.2) (fun x => cur.read (idx c (x.1 + 1) x.2)) prev

/-- `RENDER` in a given visiting order: `FB[i] <- color(CUR[i - W])`. -/
def renderLoop (c : Config) (order : List Nat) (cur : Memory 8) (fb : Memory 32) : Memory 32 :=
  forEach order id (fun i => color c (cur.read (i - c.w))) fb

/-- One memory of `CLEAR` in a given visiting order: `M[i] <- 0` (R152). -/
def clearLoop {w : Nat} (order : List Nat) (m : Memory w) : Memory w := forEach order id (fun _ => 0#w) m

end Sys2Proof.Machine
end

