-- ==== Sys2Proof/Machine/Ports.lean ====
section
/-! DEFINITION. Views of the block from outside: the byte lanes of a word at a bridge (spec/20_memory.md R54) and the
informative pin-level interface (spec/70_reset_and_hazards.md R201). -/

namespace Sys2Proof.Machine

/-- Byte `j` of a word at a byte-addressed bridge: bits `8*j+7 : 8*j` (R54). -/
def lane (v : Word) (j : Nat) : Byte := v.extractLsb' (8 * j) 8

/-- The byte of `FB` at byte offset `off` at a bridge (R54). -/
def fbByte (s : State) (off : Nat) : Byte := lane (s.fb.read (off / 4)) (off % 4)

/-- The byte of `PAL` at byte offset `off` at a bridge (R54). -/
def palByte (s : State) (off : Nat) : Byte := lane (palAt s.cfg (off / 4)) (off % 4)

/-- The request pins `req_valid`, `req_write`, `req_addr`, `req_size`, `req_wdata` (R201). -/
structure RequestPins where
  valid : Bool
  write : Bool
  addr : Addr
  size : BitVec 2
  wdata : Word
  deriving DecidableEq, Repr

/-- The inputs as one rising edge of `clk` samples them: `rst`, active high, and the request (R201). The edge itself is
time, which the model does not contain (R197). -/
structure InputPins where
  rst : Bool
  req : RequestPins
  deriving DecidableEq, Repr

/-- The response pins `rsp_valid`, `rsp_err`, `rsp_rdata` (R201). -/
structure ResponsePins where
  valid : Bool
  err : Bool
  rdata : Word
  deriving DecidableEq, Repr

/-- The outputs: the response and `busy` (R201). -/
structure OutputPins where
  rsp : ResponsePins
  busy : Bool
  deriving DecidableEq, Repr

/-- `req_size`: 0, 1, 2 for 1, 2, 4 bytes (R201). DESIGN CHOICE: 3, to which R201 gives no meaning, stands for
no transfer size (log entry 9). -/
def sizeOfPins (n : BitVec 2) : Option Size :=
  if n = 0#2 then some .one else if n = 1#2 then some .two else if n = 2#2 then some .four else none

/-- The data of a write request: a narrow transfer carries it in the low bits (R201). -/
def datumOfPins (v : Word) : Size → Datum
  | .one => .byte (v.truncate 8)
  | .two => .half (v.truncate 16)
  | .four => .word v

/-- The transaction that the request pins ask for: none with `req_valid` low (R201). -/
def transactionOfPins (q : RequestPins) : Option Transaction :=
  if q.valid then
    (sizeOfPins q.size).map fun n => if q.write then .write q.addr (datumOfPins q.wdata n) else .read q.addr n
  else none

/-- The HOST's move that the sampled inputs ask for: `RESET` with `rst` high (R190), else the request's transaction, else
none. DESIGN CHOICE: a request sampled together with `rst` high is no transaction; R201 does not say (log entry 9). -/
def turnOfPins (p : InputPins) : Option Turn :=
  if p.rst then some .reset else (transactionOfPins p.req).map .host

/-- The response pins for the last transaction; a narrow transfer's other bits are zero (R201). DESIGN CHOICE, where R201
says nothing: `rsp_rdata` is 0 for a write's response, `rsp_valid` stays high until a reset, and while `rsp_valid` is low
`rsp_err` is low and `rsp_rdata` is 0 (log entry 3). -/
def responsePins (s : State) : ResponsePins :=
  match s.rsp with
  | none => { valid := false, err := false, rdata := 0#32 }
  | some r => { valid := true, err := r.resp == .err, rdata := (r.data.map Datum.line).getD 0#32 }

/-- The `busy` output, equal to `BUSY` (R201). -/
def busyPin (s : State) : Bool := s.busy

/-- All outputs in a state (R201). -/
def outputPins (s : State) : OutputPins := { rsp := responsePins s, busy := busyPin s }

end Sys2Proof.Machine
end

