-- ==== Sys2Proof/Machine/Script.lean ====
section
/-! DEFINITION. The host script notation and its pseudo-operations (spec/30_encoding.md R85, R86): each line is the move,
or the list of moves, that it stands for. -/

namespace Sys2Proof.Machine

/-! ### Flat addresses of elements (R50, R85) -/

def palAddr (k : Nat) : Addr := BitVec.ofNat 27 (0x1000000 + 4 * k)
def curAddr (i : Nat) : Addr := BitVec.ofNat 27 (0x2000000 + i)
def prevAddr (i : Nat) : Addr := BitVec.ofNat 27 (0x3000000 + i)
def fbAddr (i : Nat) : Addr := BitVec.ofNat 27 (0x4000000 + 4 * i)

/-- The address of a register (R27 to R32). -/
def Reg.addr : Reg → Addr
  | .id => 0x0000000#27
  | .cmd => 0x0000004#27
  | .status => 0x0000008#27
  | .dim => 0x000000C#27
  | .param => 0x0000010#27
  | .oorColor => 0x0000014#27

/-! ### Lines (R85) -/

/-- `CMD <mnemonic>`. -/
def cmd (i : Instr) : Turn := commandTurn (encode i)

/-- `POKE CUR[i], v`. -/
def pokeCur (i : Nat) (v : Byte) : Turn := .host (.write (curAddr i) (.byte v))

/-- `POKE PREV[i], v`. -/
def pokePrev (i : Nat) (v : Byte) : Turn := .host (.write (prevAddr i) (.byte v))

/-- `POKE FB[i], v`. -/
def pokeFb (i : Nat) (v : Word) : Turn := .host (.write (fbAddr i) (.word v))

/-- `PEEK CUR[i]`. -/
def peekCur (i : Nat) : Turn := .host (.read (curAddr i) .one)

/-- `PEEK PREV[i]`. -/
def peekPrev (i : Nat) : Turn := .host (.read (prevAddr i) .one)

/-- `PEEK FB[i]`. -/
def peekFb (i : Nat) : Turn := .host (.read (fbAddr i) .four)

/-- `PEEK PAL[k]`. -/
def peekPal (k : Nat) : Turn := .host (.read (palAddr k) .four)

/-- `PEEK REG.<name>`. -/
def peekReg (r : Reg) : Turn := .host (.read r.addr .four)

/-! ### Pseudo-operations (R86) -/

/-- `WAIT` in the schedule where `polls` reads of `REG.STATUS` come before the CORE's step and one after it: the last
read returns `BUSY = 0`. The number is open (R197) and an argument; after `NOP`, whose first read returns `BUSY = 0`, the
expansion of R86 is the one with `polls = 0` (log entry 10). -/
def wait (polls : Nat) : List Turn := List.replicate polls (peekReg .status) ++ [.complete, peekReg .status]

/-- `RUN <mnemonic>`: `CMD <mnemonic>`, then `WAIT`. -/
def runCmd (i : Instr) (polls : Nat) : List Turn := cmd i :: wait polls

/-- `FRAME`: `RUN TICK`. -/
def frame (polls : Nat) : List Turn := runCmd .tick polls

/-- `FRAMES n`: `FRAME` repeated `n` times, the `k`-th with `polls k` reads before its completion: the spec gives no times
(R197), so each `WAIT` has a number of its own (log entry 10). -/
def frames (n : Nat) (polls : Nat → Nat) : List Turn := (List.range n).flatMap fun k => frame (polls k)

/-- `FILL CUR, v`: `POKE CUR[i], v` for every `i` in ascending order. -/
def fillCur (c : Config) (v : Byte) : List Turn := (List.range c.n).map fun i => pokeCur i v

/-- `FILL PREV, v`. -/
def fillPrev (c : Config) (v : Byte) : List Turn := (List.range c.n).map fun i => pokePrev i v

/-- `FILL FB, v`. -/
def fillFb (c : Config) (v : Word) : List Turn := (List.range c.n).map fun i => pokeFb i v

end Sys2Proof.Machine
end

