-- ==== Sys2Proof/WellFormed.lean ====
section
/-! DEFINITION. What the spec asks of a term before its rules apply: of an instruction nothing (R82: it has no
operand), of a build the constraints of R5, R130 and R131 (spec/93_implementation_defined.md V12: a build outside them
does not exist, and a model takes them as hypotheses). -/

namespace Sys2Proof

/-- No command has an immediate or any other operand (R82), so there is nothing to check. -/
def Instr.wf (_ : Instr) : Bool := true

/-- A colour channel is `4 * base` for a base value in `0 .. 63` (R130). -/
def channelOk (v : Byte) : Bool := v.toNat % 4 == 0

/-- The word format of a palette entry and of `OOR_COLOR` (R130): alpha `0xFF`, each channel a multiple of 4. -/
def colourOk (c : Word) : Bool :=
  alphaOf c == 0xFF#8 && channelOk (redOf c) && channelOk (greenOf c) && channelOk (blueOf c)

/-- Grid bounds of R5. -/
def Config.gridOk (c : Config) : Bool :=
  1 ≤ c.w && c.w ≤ 65535 && 1 ≤ c.h && c.h ≤ 65535 && c.n ≤ 2 ^ 22

/-- `0 <= B <= 255` (R5). The same bounds on `K` and `T` are their 8-bit type. -/
def Config.bandOk (c : Config) : Bool := c.b ≤ 255

/-- The palette: `P` words in the format of R130, entry 0 black and opaque (R131). -/
def Config.palOk (c : Config) : Bool :=
  c.pal.length == c.p.entries && c.pal.all colourOk && c.pal.head? == some 0x000000FF#32

/-- `OOR_COLOR` has the format of R130 (R5). -/
def Config.oorOk (c : Config) : Bool := colourOk c.oorColor

/-- An admitted build (R5, R130, R131). -/
def Config.wf (c : Config) : Bool := c.gridOk && c.bandOk && c.palOk && c.oorOk

end Sys2Proof
end

