-- ==== Sys2Proof/Safety.lean ====
section
/-! DEFINITION. What claims about runs speak of: the invariants, the end of a run and a run gone wrong
(spec/10_state.md R36, spec/70_reset_and_hazards.md R199). -/

namespace Sys2Proof.Machine

/-- The state is one of an admitted build with its three memories in canonical form, no element outside `0 .. N-1`. -/
structure State.Inv (s : State) : Prop where
  build : s.cfg.wf = true
  cur : s.cur.wf s.cfg.n
  prev : s.prev.wf s.cfg.n
  fb : s.fb.wf s.cfg.n

/-- One sticky flag at least is set: a run that ends so has gone wrong (R171, R199). -/
def State.goneWrong (s : State) : Bool := s.flags.ill || s.flags.ovr || s.flags.acc || s.flags.bad

/-- The run is over: the HOST has no further step and `BUSY = 0` (R199). -/
def State.runOver (s : State) : Prop := s.schedule = [] ∧ s.busy = false

/-- `t` is reached from `s` by steps of the machine. -/
inductive Reaches : State → State → Prop where
  | here (s : State) : Reaches s s
  | more {s t u : State} : Reaches s t → step t = .next u → Reaches s u

/-- The move writes to a heat memory (`CUR` or `PREV`). -/
def Turn.writesHeat : Turn → Bool
  | .host (.write a _) => spaceOf a == some .cur || spaceOf a == some .prev
  | .host (.read _ _) | .reset | .complete => false

/-- No move still to be made writes `CUR` or `PREV`. -/
def State.heatUntouched (s : State) : Prop := ∀ t ∈ s.schedule, t.writesHeat = false

/-- The cell at row `r`, column `k` is a border cell (R12). -/
def border (c : Config) (r k : Nat) : Bool := !interior c r k

/-- The conditional invariants of R36, for a HOST that never writes `CUR` or `PREV`: every border cell of `CUR` is 0;
column 0, column `W-1`, row `H-2` and row `H-1` of `PREV` are 0; `PREV` row `r` equals `CUR` row `r+1`. R36 claims the
last of idle states; it is stated here of busy ones too, whose memories are still those from before the acceptance
(R154), so that a completion finds it. -/
structure State.ColdBorder (s : State) : Prop where
  curBorder : ∀ r k, r < s.cfg.h → k < s.cfg.w → border s.cfg r k = true → s.cur.read (idx s.cfg r k) = 0#8
  prevBorder : ∀ r k, r < s.cfg.h → k < s.cfg.w → (k = 0 ∨ k + 1 = s.cfg.w ∨ r + 2 = s.cfg.h ∨ r + 1 = s.cfg.h) →
    s.prev.read (idx s.cfg r k) = 0#8
  scrolled : ∀ r k, r + 1 < s.cfg.h → k < s.cfg.w →
    s.prev.read (idx s.cfg r k) = s.cur.read (idx s.cfg (r + 1) k)

/-- Both heat fields are their own mirror images, left to right (spec/90_conflicts.md C1). -/
structure State.Mirrored (s : State) : Prop where
  cur : ∀ r k, r < s.cfg.h → k < s.cfg.w →
    s.cur.read (idx s.cfg r (s.cfg.w - 1 - k)) = s.cur.read (idx s.cfg r k)
  prev : ∀ r k, r < s.cfg.h → k < s.cfg.w →
    s.prev.read (idx s.cfg r (s.cfg.w - 1 - k)) = s.prev.read (idx s.cfg r k)

/-! ### Runs -/

/-- `k` steps of the machine. -/
def run (k : Nat) (s : State) : Host.Outcome State Fault Refusal := Sys2Proof.core.run k s

/-- Two states agree on all but the memories and the engine: build, flags, moves to come, last response. -/
structure SameControl (s t : State) : Prop where
  cfg : t.cfg = s.cfg
  flags : t.flags = s.flags
  schedule : t.schedule = s.schedule
  rsp : t.rsp = s.rsp

/-- Two states hold the same three memories. -/
structure SameMemories (s t : State) : Prop where
  cur : t.cur = s.cur
  prev : t.prev = s.prev
  fb : t.fb = s.fb

/-! ### The per-cell rule in whole numbers (R103 to R106), written apart from the bit vectors of Machine/Heat.lean -/

/-- The value of the cell at row `r`, column `k`. -/
def cellNat (c : Config) (m : Memory 8) (r k : Nat) : Nat := (m.read (idx c r k)).toNat

/-- The sum of the eight neighbours of the cell at row `r`, column `k`, by their rows and columns (R103). -/
def neighbourSum (c : Config) (m : Memory 8) (r k : Nat) : Nat :=
  cellNat c m (r - 1) (k - 1) + cellNat c m (r - 1) k + cellNat c m (r - 1) (k + 1) +
    cellNat c m r (k - 1) + cellNat c m r (k + 1) +
    cellNat c m (r + 1) (k - 1) + cellNat c m (r + 1) k + cellNat c m (r + 1) (k + 1)

/-- The average after cooling (R104, R105): `floor(sum / 8)`, decremented modulo 256 when `sum mod 4 = 0` and the
average is greater than 0 or the row is in the band. -/
def cooledValue (band : Bool) (sum : Nat) : Nat :=
  if sum % 4 = 0 ∧ (0 < sum / 8 ∨ band = true) then (sum / 8 + 255) % 256 else sum / 8

/-- The stored value (R106): in the band, a cooled value below `T` becomes `K - v` modulo 256. -/
def storedValue (k t : Nat) (band : Bool) (sum : Nat) : Nat :=
  if band = true ∧ cooledValue band sum < t then (k + 256 - cooledValue band sum) % 256 else cooledValue band sum

/-! ### A malformed transaction in whole numbers (R52, R53, R55), written apart from `malformed` -/

/-- The number of bytes of a transfer size (R51). -/
def Size.bytes : Size → Nat
  | .one => 1
  | .two => 2
  | .four => 4

/-- The bytes of one element of a space: 1 for `CUR` (2) and `PREV` (3), else 4 (R50). -/
def elementBytes (space : Nat) : Nat := if space = 2 ∨ space = 3 then 1 else 4

/-- The elements of a memory space: `P` for `PAL` (1), else `N` (R50). -/
def elementCount (c : Config) (space : Nat) : Nat := if space = 1 then c.p.entries else c.n

/-- The transaction is a write. -/
def Transaction.isWrite : Transaction → Bool
  | .read _ _ => false
  | .write _ _ => true

/-- `SPACE` as a number: bits 26:24 of the address (R50). -/
def Transaction.space (t : Transaction) : Nat := t.addr.toNat / 2 ^ 24

/-- `OFF` as a number: bits 23:0 of the address (R50). -/
def Transaction.off (t : Transaction) : Nat := t.addr.toNat % 2 ^ 24

/-- What R172 calls malformed: an unassigned space; a transfer size that is not the element size; a misaligned 4-byte
transfer; an offset out of range, or one of `REG` that holds no register; a write to `PAL` or to a read-only register. -/
def Transaction.isBad (c : Config) (t : Transaction) : Prop :=
  5 ≤ t.space ∨
  t.size.bytes ≠ elementBytes t.space ∨
  (t.size.bytes = 4 ∧ t.off % 4 ≠ 0) ∨
  (t.space = 0 ∧ t.off ∉ [0x00, 0x04, 0x08, 0x0C, 0x10, 0x14]) ∨
  (1 ≤ t.space ∧ elementBytes t.space * elementCount c t.space ≤ t.off) ∨
  (t.isWrite = true ∧ (t.space = 1 ∨ (t.space = 0 ∧ t.off ≠ 0x04)))

/-- The transaction is a write at the address of `REG.CMD`. -/
def Transaction.isCommandWrite (t : Transaction) : Prop := t.isWrite = true ∧ t.space = 0 ∧ t.off = 0x04

/-- The word a write puts on the data line. -/
def Transaction.word : Transaction → Word
  | .read _ _ => 0#32
  | .write _ v => v.line

/-- The word is one of the five command words (R81). -/
def legalWord (w : Word) : Prop := ∃ i : Instr, w = encode i

/-- The transaction was answered `OK`. -/
def State.answeredOk (s : State) : Prop := ∃ d, s.rsp = some { resp := .ok, data := d }

/-- The transaction was answered `ERR`. -/
def State.answeredErr (s : State) : Prop := ∃ d, s.rsp = some { resp := .err, data := d }

end Sys2Proof.Machine
end

