-- ==== Sys2Proof/Certificates/Slice0/Obligations.lean ====
section
/-! DEFINITION. The statements about FIRE-CORE, drawn from the numbered rules of spec/. -/

open Sys2Proof Sys2Proof.Machine

/-! ### Encoding (spec/30_encoding.md) -/

/-- R81, R83: the five command words written out, and two words that are no command. -/
def Obligations.DecodeTheFiveCommandWords : Prop :=
  decode 0x00000000#32 = .ok .nop ∧ decode 0x00000001#32 = .ok .step ∧ decode 0x00000002#32 = .ok .render ∧
  decode 0x00000003#32 = .ok .tick ∧ decode 0x00000004#32 = .ok .clear ∧
  decode 0x00000005#32 = .error .unassignedOpcode ∧ decode 0x00000011#32 = .error .reservedBitsSet

/-- R81: "A word selects a command exactly when `word[31:4] = 0` and `word[3:0]` is one of the five values"; the words of
the table; a word decodes to a command exactly when it is the command's word. -/
def Obligations.WordsAndCommandsAgree : Prop :=
  (encode .nop = 0x00000000#32 ∧ encode .step = 0x00000001#32 ∧ encode .render = 0x00000002#32 ∧
    encode .tick = 0x00000003#32 ∧ encode .clear = 0x00000004#32) ∧
  (∀ (w : Word) (i : Instr), decode w = .ok i ↔ w = encode i) ∧
  (∀ w : Word, (∃ i, decode w = .ok i) ↔ w.toNat / 16 = 0 ∧ w.toNat % 16 ≤ 4)

/-- R83: an illegal word written while idle is refused with `ILL`, one written while busy with `OVR`; it is not
executed, no memory and no other flag changes, and `BUSY` keeps its value. -/
def Obligations.IllegalWordIsNeverExecuted : Prop :=
  ∀ (s : State) (w : Word), ¬ legalWord w →
    ∃ u, hostTransaction (.write cmdAddr (.word w)) s = .next u ∧ u.answeredErr ∧ SameMemories s u ∧
      u.cfg = s.cfg ∧ u.engine = s.engine ∧ u.schedule = s.schedule ∧
      (s.busy = false → u.busy = false ∧ u.flags = { s.flags with ill := true }) ∧
      (s.busy = true → u.flags = { s.flags with ovr := true })

/-! ### Reset (spec/10_state.md R35, spec/70_reset_and_hazards.md R190, R192) -/

/-- R35: every cell, pixel, flag and `BUSY` is zero after reset, in every build, and the palette and the constant
registers are the build's. -/
def Obligations.ResetStateIsAllZero : Prop :=
  ∀ c : Config,
    (∀ i, (State.resetOf c).cur.read i = 0#8) ∧ (∀ i, (State.resetOf c).prev.read i = 0#8) ∧
    (∀ i, (State.resetOf c).fb.read i = 0#32) ∧ (State.resetOf c).cfg = c ∧ (State.resetOf c).busy = false ∧
    (State.resetOf c).flags = { ill := false, ovr := false, acc := false, bad := false } ∧
    readReg (State.resetOf c) .id = 0x46495245#32 ∧ readReg (State.resetOf c) .dim = dimWord c ∧
    readReg (State.resetOf c) .param = paramWord c ∧ readReg (State.resetOf c) .oorColor = c.oorColor

/-- R190, R192: `RESET` is enabled in every state and leaves the reset state of the build, busy or not: the memories
zero, idle, the flags clear; the palette and the other parameters are unaffected and the command in flight is discarded. -/
def Obligations.ResetFromEveryState : Prop :=
  ∀ (s : State) (rest : List Turn), s.schedule = .reset :: rest →
    ∃ u, step s = .next u ∧ SameMemories (State.resetOf s.cfg) u ∧ u.cfg = s.cfg ∧ u.busy = false ∧
      (∀ i, u.cur.read i = 0#8 ∧ u.prev.read i = 0#8 ∧ u.fb.read i = 0#32) ∧ (∀ f, u.flags.get f = false) ∧
      (∀ r, readReg u r = readReg (State.resetOf s.cfg) r)

/-! ### Registers (spec/10_state.md R27 to R32) -/

/-- R27, R30, R31, R32: what the constant registers read, busy or idle; that a write to one is refused with `BAD`; that
offsets `0x18` and above hold no register. -/
def Obligations.ConstantRegisters : Prop :=
  ∀ s : State,
    hostTransaction (.read 0x0000000#27 .four) s = .next (respondData (.word 0x46495245#32) s) ∧
    (∃ v : Word, hostTransaction (.read 0x000000C#27 .four) s = .next (respondData (.word v) s) ∧
      (s.cfg.wf = true → v.toNat % 2 ^ 16 = s.cfg.w ∧ v.toNat / 2 ^ 16 = s.cfg.h)) ∧
    (∃ v : Word, hostTransaction (.read 0x0000010#27 .four) s = .next (respondData (.word v) s) ∧
      (s.cfg.wf = true → (v.extractLsb' 0 8).toNat = s.cfg.b) ∧ v.extractLsb' 8 8 = s.cfg.k ∧
      v.extractLsb' 16 8 = s.cfg.t ∧ (v.getLsbD 24 = true ↔ s.cfg.p = .p256) ∧ v.extractLsb' 25 7 = 0#7 ∧
      (s.cfg = cfg0 → v = 0x010F1606#32)) ∧
    hostTransaction (.read 0x0000014#27 .four) s = .next (respondData (.word s.cfg.oorColor) s) ∧
    (∀ (a : Addr) (v : Datum), a ∈ [0x0000000#27, 0x000000C#27, 0x0000010#27, 0x0000014#27] →
      hostTransaction (.write a v) s = .next (refuse .bad (.write a v) s)) ∧
    (∀ t : Transaction, t.space = 0 → 0x18 ≤ t.off → hostTransaction t s = .next (refuse .bad t s))

/-- R29: `REG.STATUS` reads `BUSY` and the four flags as they are before the read, bits 31:5 zero, and is read-only; it
reads zero after reset. -/
def Obligations.StatusRegister : Prop :=
  (∀ s : State,
    (∃ v : Word, hostTransaction (.read 0x0000008#27 .four) s = .next (respondData (.word v) s) ∧
      v.getLsbD 0 = s.busy ∧ v.getLsbD 1 = s.flags.ill ∧ v.getLsbD 2 = s.flags.ovr ∧ v.getLsbD 3 = s.flags.acc ∧
      v.getLsbD 4 = s.flags.bad ∧ v.extractLsb' 5 27 = 0#27) ∧
    (∀ v : Datum, hostTransaction (.write 0x0000008#27 v) s = .next (refuse .bad (.write 0x0000008#27 v) s))) ∧
  (∀ c : Config, readReg (State.resetOf c) .status = 0#32)

/-! ### The bus (spec/20_memory.md, spec/60_exceptions.md) -/

/-- R172: a transaction is malformed exactly when its size, alignment, space, offset or right is one the rule names, and
a malformed one is refused with `BAD`, busy or idle. -/
def Obligations.MalformedTransactionsAreBad : Prop :=
  (∀ (c : Config) (t : Transaction), malformed c t = true ↔ t.isBad c) ∧
  (∀ (s : State) (t : Transaction), t.isBad s.cfg → hostTransaction t s = .next (refuse .bad t s))

/-- R173 to R176: which flag a refused transaction sets, and that one refused by none of the checks responds `OK` and
sets no flag. The checks are made in the order `BAD`, then `ACC` or `OVR`, then `ILL`. -/
def Obligations.RefusalPriority : Prop :=
  ∀ (s : State) (t : Transaction),
    (t.isBad s.cfg → hostTransaction t s = .next (refuse .bad t s)) ∧
    (¬ t.isBad s.cfg → 1 ≤ t.space → s.busy = true → hostTransaction t s = .next (refuse .acc t s)) ∧
    (¬ t.isBad s.cfg → t.isCommandWrite → s.busy = true → hostTransaction t s = .next (refuse .ovr t s)) ∧
    (¬ t.isBad s.cfg → t.isCommandWrite → s.busy = false → ¬ legalWord t.word →
      hostTransaction t s = .next (refuse .ill t s)) ∧
    (¬ t.isBad s.cfg → (1 ≤ t.space → s.busy = false) → (t.isCommandWrite → s.busy = false ∧ legalWord t.word) →
      ∃ u, hostTransaction t s = .next u ∧ u.answeredOk ∧ u.flags = s.flags)

/-- R171: a transaction answered `ERR` sets exactly one flag, returns data 0 of its size if it is a read, and changes no
memory, no other flag, not `BUSY` and not `OPR`. -/
def Obligations.RefusedTransactionChangesOnlyItsFlag : Prop :=
  ∀ (s u : State) (t : Transaction), hostTransaction t s = .next u → u.answeredErr →
    SameMemories s u ∧ u.engine = s.engine ∧ u.cfg = s.cfg ∧ u.schedule = s.schedule ∧
    (∃ f, u.flags.get f = true ∧ ∀ g, g ≠ f → u.flags.get g = s.flags.get g) ∧
    (∃ d, u.rsp = some { resp := .err, data := d } ∧ (t.isWrite = true → d = none) ∧
      (t.isWrite = false → ∃ v, d = some v ∧ v.size = t.size ∧ v.line = 0#32))

/-- R58: a read changes no memory, not `BUSY`, and no flag unless it is refused; reading again returns the same; a write
that is not to `REG.CMD` starts nothing, sets no flag if it is answered `OK`, and changes no element of a memory but the
one its address names (`sinkOf`). -/
def Obligations.OnlyTheCommandRegisterHasSideEffects : Prop :=
  (∀ (s : State) (a : Addr) (n : Size), ∃ u, hostTransaction (.read a n) s = .next u ∧
    SameMemories s u ∧ u.engine = s.engine ∧ u.cfg = s.cfg ∧ u.schedule = s.schedule ∧
    (u.answeredOk → u.flags = s.flags) ∧
    ∃ v, hostTransaction (.read a n) u = .next v ∧ v.rsp = u.rsp) ∧
  (∀ (s : State) (t : Transaction), t.isWrite = true → ¬ t.isCommandWrite →
    ∃ u, hostTransaction t s = .next u ∧ u.engine = s.engine ∧ u.cfg = s.cfg ∧ u.schedule = s.schedule ∧
      (u.answeredOk → u.flags = s.flags) ∧
      (∀ i, sinkOf s.cfg t.addr t.size ≠ some (.cur i) → u.cur.read i = s.cur.read i) ∧
      (∀ i, sinkOf s.cfg t.addr t.size ≠ some (.prev i) → u.prev.read i = s.prev.read i) ∧
      (∀ i, sinkOf s.cfg t.addr t.size ≠ some (.fb i) → u.fb.read i = s.fb.read i))

/-- R26: a flag is set only by a refused transaction and cleared only by reset; no completion and no register write
clears or sets one. -/
def Obligations.FlagsAreSticky : Prop :=
  (∀ s u : State, step s = .next u → (∀ rest, s.schedule ≠ .reset :: rest) →
    ∀ f, (s.flags.get f = true → u.flags.get f = true) ∧
      (s.flags.get f = false → u.flags.get f = true → u.answeredErr ∧ ∃ t rest, s.schedule = .host t :: rest)) ∧
  (∀ (s : State) (rest : List Turn), s.schedule = .reset :: rest →
    ∃ u, step s = .next u ∧ ∀ f, u.flags.get f = false)

/-- R50, R55: a HOST write to `CUR`, `PREV` or `FB` while idle is answered `OK` and stores exactly the value given in the
element addressed; every other element, the other memories, `BUSY` and the flags are unchanged. -/
def Obligations.HostWriteStoresExactly : Prop :=
  ∀ (s : State) (i : Nat), s.Inv → s.busy = false → i < s.cfg.n →
    (∀ v : Byte, ∃ u, takeTurn (pokeCur i v) s = .next u ∧ u.answeredOk ∧
      (∀ j, u.cur.read j = if j = i then v else s.cur.read j) ∧ u.prev = s.prev ∧ u.fb = s.fb ∧
      u.engine = s.engine ∧ u.flags = s.flags ∧ u.cfg = s.cfg ∧ u.schedule = s.schedule) ∧
    (∀ v : Byte, ∃ u, takeTurn (pokePrev i v) s = .next u ∧ u.answeredOk ∧
      (∀ j, u.prev.read j = if j = i then v else s.prev.read j) ∧ u.cur = s.cur ∧ u.fb = s.fb ∧
      u.engine = s.engine ∧ u.flags = s.flags ∧ u.cfg = s.cfg ∧ u.schedule = s.schedule) ∧
    (∀ v : Word, ∃ u, takeTurn (pokeFb i v) s = .next u ∧ u.answeredOk ∧
      (∀ j, u.fb.read j = if j = i then v else s.fb.read j) ∧ u.cur = s.cur ∧ u.prev = s.prev ∧
      u.engine = s.engine ∧ u.flags = s.flags ∧ u.cfg = s.cfg ∧ u.schedule = s.schedule)

/-- R51, R59 (a): while idle a HOST read of an element returns what the memory holds, and so the value of the latest
write; the palette reads as the build's. -/
def Obligations.HostReadsTheLatestWrite : Prop :=
  ∀ (s : State) (i j : Nat), s.Inv → s.busy = false → i < s.cfg.n → j < s.cfg.n →
    (∀ v : Byte, ∃ u, run 2 { s with schedule := [pokeCur i v, peekCur j] } = .next u ∧
      u.rsp = some { resp := .ok, data := some (.byte (if j = i then v else s.cur.read j)) }) ∧
    (∀ v : Byte, ∃ u, run 2 { s with schedule := [pokePrev i v, peekPrev j] } = .next u ∧
      u.rsp = some { resp := .ok, data := some (.byte (if j = i then v else s.prev.read j)) }) ∧
    (∀ v : Word, ∃ u, run 2 { s with schedule := [pokeFb i v, peekFb j] } = .next u ∧
      u.rsp = some { resp := .ok, data := some (.word (if j = i then v else s.fb.read j)) }) ∧
    (∀ k, k < s.cfg.p.entries → takeTurn (peekPal k) s = .next (respondData (.word (palAt s.cfg k)) s))

/-- R56, R63: while a command is in flight no HOST transaction reads or disturbs a memory or the command: an access to
`PAL`, `CUR`, `PREV` or `FB` is answered `ERR` (with data 0 if it is a read). -/
def Obligations.BusyProtectsTheMemories : Prop :=
  ∀ (s : State) (t : Transaction), s.busy = true →
    ∃ u, hostTransaction t s = .next u ∧ SameMemories s u ∧ u.engine = s.engine ∧ u.cfg = s.cfg ∧
      (1 ≤ t.space → u.answeredErr ∧ ∀ d v, u.rsp = some { resp := d, data := some v } → v.line = 0#32)

/-- R23: no step changes the palette or any other build parameter, and a HOST write to `PAL` is refused with `BAD`. -/
def Obligations.PaletteIsImmutable : Prop :=
  (∀ s u : State, step s = .next u → u.cfg = s.cfg) ∧
  (∀ (s : State) (t : Transaction), t.space = 1 → t.isWrite = true → hostTransaction t s = .next (refuse .bad t s))

/-! ### `NOP` (spec/42_control_commands.md R150) -/

/-- R150: `NOP` has no effect; its write is answered `OK` while idle, `BUSY` stays 0 and no memory, flag or register
changes; while busy it is refused with `OVR`. -/
def Obligations.NopDoesNothing : Prop :=
  encode .nop = 0x00000000#32 ∧
  (∀ s : State, exec .nop s = .next s) ∧
  (∀ (s : State) (rest : List Turn), s.schedule = cmd .nop :: rest → s.busy = false →
    step s = .next { s with schedule := rest, rsp := some { resp := .ok, data := none } }) ∧
  (∀ (s : State) (rest : List Turn), s.schedule = cmd .nop :: rest → s.busy = true →
    ∃ u, step s = .next u ∧ u.answeredErr ∧ SameMemories s u ∧ u.engine = s.engine ∧
      u.flags = { s.flags with ovr := true })

/-! ### `STEP` (spec/40_heat_step.md) -/

/-- R103 to R106, R108, R109, and the bottom row of R110: `STEP` completes in every
state. Each interior cell of `CUR` takes the value of the whole-number rule on the eight neighbours in `PREV`, each
border cell is kept; `PREV` row `r` takes the new `CUR` row `r+1`, the bottom row of `PREV` is kept; `FB`, the flags and
everything else are unchanged. -/
def Obligations.StepFollowsTheHeatRule : Prop :=
  ∀ s : State, ∃ t, exec .step s = .next t ∧ SameControl s t ∧ t.busy = false ∧ t.fb = s.fb ∧
    (∀ r k, interior s.cfg r k = true →
      neighbourSum s.cfg s.prev r k ≤ 2040 ∧
      (t.cur.read (idx s.cfg r k)).toNat =
        storedValue s.cfg.k.toNat s.cfg.t.toNat (inBand s.cfg r) (neighbourSum s.cfg s.prev r k)) ∧
    (∀ r k, r < s.cfg.h → k < s.cfg.w → border s.cfg r k = true →
      t.cur.read (idx s.cfg r k) = s.cur.read (idx s.cfg r k)) ∧
    (∀ r k, r + 1 < s.cfg.h → k < s.cfg.w → t.prev.read (idx s.cfg r k) = t.cur.read (idx s.cfg (r + 1) k)) ∧
    (∀ r k, r + 1 = s.cfg.h → k < s.cfg.w → t.prev.read (idx s.cfg r k) = s.prev.read (idx s.cfg r k))

/-- The table of R111: the stored value of a cell in each of the eight cases of its sum and band. -/
def Obligations.CellTable : Prop :=
  ∀ (c : Config) (sum : BitVec 11),
    (sum.toNat % 4 ≠ 0 → (cellOfSum c false sum).toNat = sum.toNat / 8) ∧
    (sum.toNat % 4 = 0 → 1 ≤ sum.toNat / 8 → (cellOfSum c false sum).toNat = sum.toNat / 8 - 1) ∧
    (sum.toNat % 4 = 0 → sum.toNat / 8 = 0 → (cellOfSum c false sum).toNat = 0) ∧
    (sum.toNat % 4 ≠ 0 → c.t.toNat ≤ sum.toNat / 8 → (cellOfSum c true sum).toNat = sum.toNat / 8) ∧
    (sum.toNat % 4 ≠ 0 → sum.toNat / 8 < c.t.toNat →
      (cellOfSum c true sum).toNat = (c.k.toNat + 256 - sum.toNat / 8) % 256) ∧
    (sum.toNat % 4 = 0 → c.t.toNat + 1 ≤ sum.toNat / 8 → (cellOfSum c true sum).toNat = sum.toNat / 8 - 1) ∧
    (sum.toNat % 4 = 0 → 1 ≤ sum.toNat / 8 → sum.toNat / 8 ≤ c.t.toNat →
      (cellOfSum c true sum).toNat = (c.k.toNat + 257 - sum.toNat / 8) % 256) ∧
    (sum.toNat % 4 = 0 → sum.toNat / 8 = 0 → (cellOfSum c true sum).toNat = 255)

/-- R105 (a), (b): outside the band the stored value is never above the average, so no spark arises there; inside the
band a sum of 0 or 4 gives 255, whatever `T` and `K` are. -/
def Obligations.SparksArePossibleOnlyInTheBand : Prop :=
  ∀ s : State, ∃ t, exec .step s = .next t ∧
    ∀ r k, interior s.cfg r k = true →
      (inBand s.cfg r = false →
        (t.cur.read (idx s.cfg r k)).toNat ≤ neighbourSum s.cfg s.prev r k / 8) ∧
      (inBand s.cfg r = true → neighbourSum s.cfg s.prev r k = 0 ∨ neighbourSum s.cfg s.prev r k = 4 →
        t.cur.read (idx s.cfg r k) = 255#8)

/-- R116: `STEP` changes neither `FB`, nor `PAL`, nor the sticky flags, nor row `H-1` of `PREV`, nor a border cell of
`CUR`, and the interior cells of `CUR` before it do not influence the fields after it (the spec's inference from R100). That the
fields are equal as lists, in states whose lists have elements at `N` or above too, is the model's (log entry 13, DESIGN
CHOICE). -/
def Obligations.StepIgnoresTheInteriorOfCur : Prop :=
  ∀ s s' : State, s'.cfg = s.cfg → (∀ i, i < s.cfg.n → s'.prev.read i = s.prev.read i) →
    (∀ r k, r < s.cfg.h → k < s.cfg.w → border s.cfg r k = true →
      s'.cur.read (idx s.cfg r k) = s.cur.read (idx s.cfg r k)) →
    ∃ t t', exec .step s = .next t ∧ exec .step s' = .next t' ∧ t.cur = t'.cur ∧ t.prev = t'.prev ∧
      t.fb = s.fb ∧ t.cfg = s.cfg ∧ t.flags = s.flags ∧
      (∀ r k, r + 1 = s.cfg.h → k < s.cfg.w → t.prev.read (idx s.cfg r k) = s.prev.read (idx s.cfg r k)) ∧
      (∀ r k, r < s.cfg.h → k < s.cfg.w → border s.cfg r k = true →
        t.cur.read (idx s.cfg r k) = s.cur.read (idx s.cfg r k))

/-- R64 (the spec's inference from R57) with R100, R135, R151, R152: visiting the cells of each phase one at a time, in ANY order, with the loops of the
pseudocode, gives exactly the state that the meaning of the command gives. -/
def Obligations.VisitingOrderDoesNotMatter : Prop :=
  ∀ (s : State) (compute scroll : List (Nat × Nat)) (pixels cells : List Nat), s.Inv →
    compute.Perm (interiorCells s.cfg) → scroll.Perm (scrollCells s.cfg) → pixels.Perm (renderCells s.cfg) →
    cells.Perm (List.range s.cfg.n) →
    let cur' := computeLoop s.cfg compute s.prev s.cur
    let prev' := scrollLoop s.cfg scroll cur' s.prev
    exec .step s = .next { s with cur := cur', prev := prev', engine := .idle } ∧
    exec .render s = .next { s with fb := renderLoop s.cfg pixels s.cur s.fb, engine := .idle } ∧
    exec .tick s = .next { s with cur := cur', prev := prev', fb := renderLoop s.cfg pixels cur' s.fb,
                                  engine := .idle } ∧
    exec .clear s = .next { s with cur := clearLoop cells s.cur, prev := clearLoop cells s.prev,
                                   fb := clearLoop cells s.fb, engine := .idle }

/-- R112: from the reset state one `STEP` sets every interior cell of the band to 255 and leaves every other cell of
`CUR` at 0, in every build. -/
def Obligations.SparksAtTheFirstStep : Prop :=
  ∀ c : Config, ∃ t, exec .step (State.resetOf c) = .next t ∧
    ∀ r k, r < c.h → k < c.w →
      t.cur.read (idx c r k) = if interior c r k = true ∧ inBand c r = true then 255#8 else 0#8

/-- R112: heat rises by at most two rows per tick: where the rows of `CUR` above row `m` are zero, the rows above row
`m-2` that are not in the band are zero after `STEP`. -/
def Obligations.HeatRisesAtMostTwoRows : Prop :=
  ∀ (s : State) (m : Nat), s.ColdBorder →
    (∀ r k, r < m → r < s.cfg.h → k < s.cfg.w → s.cur.read (idx s.cfg r k) = 0#8) →
    ∃ t, exec .step s = .next t ∧
      ∀ r k, r + 2 < m → r < s.cfg.h → k < s.cfg.w → inBand s.cfg r = false → t.cur.read (idx s.cfg r k) = 0#8

/-- R113: the degenerate sizes, none of them an error. -/
def Obligations.DegenerateSizes : Prop :=
  ∀ s : State, ∃ t, exec .step s = .next t ∧
    (s.cfg.w < 3 ∨ s.cfg.h < 3 → ∀ i, i < s.cfg.n → t.cur.read i = s.cur.read i) ∧
    (s.cfg.h = 1 → ∀ i, i < s.cfg.n → t.prev.read i = s.prev.read i) ∧
    (s.cfg.b = 0 → (∀ r, r < s.cfg.h → inBand s.cfg r = false) ∧
      ((∀ i, i < s.cfg.n → s.cur.read i = 0#8 ∧ s.prev.read i = 0#8) →
        ∀ i, i < s.cfg.n → t.cur.read i = 0#8 ∧ t.prev.read i = 0#8)) ∧
    (s.cfg.h ≤ s.cfg.b → ∀ r, inBand s.cfg r = true)

/-- spec/90_conflicts.md C1: the rule is symmetric left to right: a mirror-symmetric field stays mirror-symmetric. -/
def Obligations.StepKeepsMirrorSymmetry : Prop :=
  ∀ s : State,
    (∀ r k, r < s.cfg.h → k < s.cfg.w →
      s.cur.read (idx s.cfg r (s.cfg.w - 1 - k)) = s.cur.read (idx s.cfg r k) ∧
      s.prev.read (idx s.cfg r (s.cfg.w - 1 - k)) = s.prev.read (idx s.cfg r k)) →
    ∃ t, exec .step s = .next t ∧
      ∀ r k, r < s.cfg.h → k < s.cfg.w →
        t.cur.read (idx s.cfg r (s.cfg.w - 1 - k)) = t.cur.read (idx s.cfg r k) ∧
        t.prev.read (idx s.cfg r (s.cfg.w - 1 - k)) = t.prev.read (idx s.cfg r k)

/-! ### `RENDER` (spec/41_palette_render.md) -/

/-- R136, R137: `RENDER` completes in every state; pixel `(r+1, c)` takes the colour of cell `(r, c)`, row 0 of `FB` is
kept, and nothing else changes. -/
def Obligations.RenderShowsTheCellAbove : Prop :=
  ∀ s : State, ∃ t, exec .render s = .next t ∧ SameControl s t ∧ t.busy = false ∧ t.cur = s.cur ∧ t.prev = s.prev ∧
    (∀ r k, r + 1 < s.cfg.h → k < s.cfg.w →
      t.fb.read (idx s.cfg (r + 1) k) =
        if (s.cur.read (idx s.cfg r k)).toNat < s.cfg.p.entries
        then palAt s.cfg (s.cur.read (idx s.cfg r k)).toNat
        else s.cfg.oorColor) ∧
    (∀ k, 0 < s.cfg.h → k < s.cfg.w → t.fb.read (idx s.cfg 0 k) = s.fb.read (idx s.cfg 0 k))

/-- R132, R133: a heat value indexes the palette directly; with 256 entries no value is out of range; with the default
`OOR_COLOR = PAL[P-1]` an out-of-range value shows the last entry. -/
def Obligations.ColourOfAHeatValue : Prop :=
  ∀ (c : Config) (v : Byte),
    (v.toNat < c.p.entries → color c v = palAt c v.toNat) ∧ (c.p.entries ≤ v.toNat → color c v = c.oorColor) ∧
    (c.p = .p256 → color c v = palAt c v.toNat) ∧
    (c.oorColor = palAt c (c.p.entries - 1) → color c v = palAt c (min v.toNat (c.p.entries - 1)))

/-- R138, R139: the pixels `RENDER` writes depend on the build and on rows `0 .. H-2` of `CUR` only, and a second
`RENDER` changes nothing. -/
def Obligations.RenderIsDeterministicAndRepeatable : Prop :=
  (∀ s s' : State, s'.cfg = s.cfg →
    (∀ r k, r + 1 < s.cfg.h → k < s.cfg.w → s'.cur.read (idx s.cfg r k) = s.cur.read (idx s.cfg r k)) →
    ∃ t t', exec .render s = .next t ∧ exec .render s' = .next t' ∧
      ∀ i, s.cfg.w ≤ i → i < s.cfg.n → t'.fb.read i = t.fb.read i) ∧
  (∀ s : State, ∃ t, exec .render s = .next t ∧ exec .render t = .next t)

/-- R130 with R136: in an admitted build every rendered pixel has alpha `0xFF` and colour channels that are multiples
of 4. -/
def Obligations.RenderedPixelsHaveTheWordFormat : Prop :=
  ∀ s : State, s.cfg.wf = true → ∃ t, exec .render s = .next t ∧
    ∀ i, s.cfg.w ≤ i → i < s.cfg.n →
      (t.fb.read i).toNat % 256 = 255 ∧ (t.fb.read i).toNat / 2 ^ 8 % 4 = 0 ∧
      (t.fb.read i).toNat / 2 ^ 16 % 4 = 0 ∧ (t.fb.read i).toNat / 2 ^ 24 % 4 = 0

/-- R134: the fixture palette by its four ramps, the plateau from entry 48 on; it is the palette of `CFG0`. -/
def Obligations.FixturePalette : Prop :=
  (∀ p : PalSize, (palFixture p).length = p.entries) ∧
  (∀ j, j < 16 → fixtureColour j = BitVec.ofNat 32 (16 * j * 2 ^ 24 + 0xFF)) ∧
  (∀ j, j < 16 → fixtureColour (16 + j) = BitVec.ofNat 32 (0xFC0000FF + 16 * j * 2 ^ 16)) ∧
  (∀ j, j < 16 → fixtureColour (32 + j) = BitVec.ofNat 32 (0xFCFC00FF + 16 * j * 2 ^ 8)) ∧
  (∀ k, 48 ≤ k → fixtureColour k = 0xFCFCFCFF#32) ∧
  (∀ k, k < 256 → palAt cfg0 k = fixtureColour k)

/-! ### `TICK` and `CLEAR` (spec/42_control_commands.md R151, R152) -/

/-- R151: `TICK` ends exactly where `STEP` followed by `RENDER` ends, as an effect and as a run: `BUSY` is 1 until its one
completion. While busy its write is refused with `OVR`. -/
def Obligations.TickIsStepThenRender : Prop :=
  encode .tick = 0x00000003#32 ∧
  (∀ s : State, ∃ u v, exec .step s = .next u ∧ exec .render u = .next v ∧ exec .tick s = .next v ∧
    SameControl s v ∧ v.busy = false ∧ v.cur = u.cur ∧ v.prev = u.prev) ∧
  (∀ s : State, s.busy = false →
    ∃ a u v, run 1 { s with schedule := [cmd .tick, .complete] } = .next a ∧ a.busy = true ∧ SameMemories s a ∧
      run 2 { s with schedule := [cmd .tick, .complete] } = .next u ∧
      run 4 { s with schedule := [cmd .step, .complete, cmd .render, .complete] } = .next v ∧ u = v) ∧
  (∀ (s : State) (rest : List Turn), s.schedule = cmd .tick :: rest → s.busy = true →
    ∃ u, step s = .next u ∧ u.answeredErr ∧ SameMemories s u ∧ u.engine = s.engine ∧
      u.flags = { s.flags with ovr := true })

/-- R152: `CLEAR` completes in every state and zeroes the three memories whole, keeps the sticky flags, and is the only
command that writes row `H-1` of `PREV`, a border cell of `CUR` or row 0 of `FB`; while busy its write is refused with `OVR`. That
elements at `N` or above, which no run has, are zero too is the model's (log entry 13, DESIGN CHOICE). -/
def Obligations.ClearRestoresTheStartUpContents : Prop :=
  encode .clear = 0x00000004#32 ∧
  (∀ s : State, ∃ t, exec .clear s = .next t ∧ SameControl s t ∧ t.busy = false ∧
    SameMemories (State.resetOf s.cfg) t ∧
    ∀ i, t.cur.read i = 0#8 ∧ t.prev.read i = 0#8 ∧ t.fb.read i = 0#32) ∧
  (∀ (s : State) (i : Instr), i ≠ .clear → ∃ t, exec i s = .next t ∧
    (∀ r k, r + 1 = s.cfg.h → k < s.cfg.w → t.prev.read (idx s.cfg r k) = s.prev.read (idx s.cfg r k)) ∧
    (∀ r k, r < s.cfg.h → k < s.cfg.w → border s.cfg r k = true →
      t.cur.read (idx s.cfg r k) = s.cur.read (idx s.cfg r k)) ∧
    (∀ k, 0 < s.cfg.h → k < s.cfg.w → t.fb.read (idx s.cfg 0 k) = s.fb.read (idx s.cfg 0 k))) ∧
  (∀ (s : State) (rest : List Turn), s.schedule = cmd .clear :: rest → s.busy = true →
    ∃ u, step s = .next u ∧ u.answeredErr ∧ SameMemories s u ∧ u.engine = s.engine ∧
      u.flags = { s.flags with ovr := true })

/-! ### The life of a command (spec/42_control_commands.md R153 to R155) -/

/-- R28, R153: the four cases of a write of the word `w` to `REG.CMD`, and that a read of it returns 0 with no effect. -/
def Obligations.AcceptanceOfACommand : Prop :=
  ∀ s : State,
    hostTransaction (.read 0x0000004#27 .four) s = .next (respondData (.word 0#32) s) ∧
    ∀ w : Word,
      (s.busy = true → hostTransaction (.write 0x0000004#27 (.word w)) s =
        .next (refuse .ovr (.write 0x0000004#27 (.word w)) s)) ∧
      (s.busy = false → ¬ legalWord w → hostTransaction (.write 0x0000004#27 (.word w)) s =
        .next (refuse .ill (.write 0x0000004#27 (.word w)) s)) ∧
      (s.busy = false → w = encode .nop → hostTransaction (.write 0x0000004#27 (.word w)) s =
        .next { s with rsp := some { resp := .ok, data := none } }) ∧
      (∀ op : CoreOp, s.busy = false → w = encode op.instr →
        hostTransaction (.write 0x0000004#27 (.word w)) s =
          .next { s with engine := .running op, rsp := some { resp := .ok, data := none } } ∧
        op.opr = w.extractLsb' 0 3)

/-- R154: the CORE's only step, enabled while busy, applies the command named by `OPR` and clears `BUSY`; nothing else
changes. That its turn on an idle block, where R154 enables no step, answers the same state is the model's choice (log
entry 2, DESIGN CHOICE). -/
def Obligations.CompletionAppliesTheCommandInFlight : Prop :=
  (∀ (s : State) (op : CoreOp), s.engine = .running op →
    ∃ u, coreTurn s = .next u ∧ exec op.instr s = .next u ∧ u.busy = false ∧ SameControl s u) ∧
  (∀ s : State, s.busy = false → coreTurn s = .next s) ∧
  (CoreOp.opr .step = 1#3 ∧ CoreOp.opr .render = 2#3 ∧ CoreOp.opr .tick = 3#3 ∧ CoreOp.opr .clear = 4#3)

/-- R155, R199: every run comes to its end: after the scheduled moves and one step more the HOST has no further step and
`BUSY = 0`, and from there the block waits, keeping all state. The bound of one step more and the step of a waiting block
to itself are the model's choice (log entry 2, DESIGN CHOICE). -/
def Obligations.EveryRunComesToItsEnd : Prop :=
  ∀ s : State, ∃ u, run (s.schedule.length + 1) s = .next u ∧ u.runOver ∧ ∀ k, run k u = .next u

/-- R63, R155: however many transactions the HOST makes while a command is in flight, the command completes as if there
had been none, with the effect it would have had at once. -/
def Obligations.TrafficDoesNotDisturbTheCommand : Prop :=
  ∀ (s : State) (op : CoreOp) (ts : List Transaction) (rest : List Turn), s.engine = .running op →
    s.schedule = ts.map Turn.host ++ .complete :: rest →
    ∃ u v, exec op.instr s = .next v ∧ run (ts.length + 1) s = .next u ∧ SameMemories v u ∧ u.busy = false ∧
      u.schedule = rest ∧ u.cfg = s.cfg

/-- R86, R59 (b): `RUN` of any command from an idle block, with any number of polls before the CORE's step: it ends idle
with exactly the command's effect on the memories, no flag set, and a last read of `REG.STATUS` that shows `BUSY = 0`.
`WAIT` as polls, the CORE's turn and one poll more is log entry 10 (DEDUCED); that the CORE's turn after `NOP` is no step is
log entry 2 (DESIGN CHOICE). -/
def Obligations.RunOfACommand : Prop :=
  ∀ (s : State) (i : Instr) (polls : Nat) (rest : List Turn), s.busy = false →
    s.schedule = runCmd i polls ++ rest →
    ∃ t u, exec i s = .next t ∧ run (polls + 3) s = .next u ∧ SameMemories t u ∧ u.busy = false ∧
      u.flags = s.flags ∧ u.cfg = s.cfg ∧ u.schedule = rest ∧
      ∃ v : Word, u.rsp = some { resp := .ok, data := some (.word v) } ∧ v.getLsbD 0 = false

/-- A step runs the decoded command. On the state that `withFetchWord` makes: a command that makes the block busy stands
accepted and the next step is its effect; `NOP` is the HOST's next write, whose acceptance is its effect. From the HOST's
write on: acceptance, then completion, with the response `OK` (R153, R154). How `withFetchWord` places a command is the
model's choice (log entry 4, DESIGN CHOICE): the block fetches nothing. -/
def Obligations.StepRunsTheDecodedCommand : Prop :=
  (∀ (s : State) (w : Word) (i : Instr), decode w = .ok i →
    SameMemories s (s.withFetchWord 32 w.toNat) ∧ (s.withFetchWord 32 w.toNat).cfg = s.cfg ∧
    (s.withFetchWord 32 w.toNat).flags = s.flags ∧
    (i ≠ .nop → step (s.withFetchWord 32 w.toNat) = exec i (s.withFetchWord 32 w.toNat)) ∧
    (i = .nop → step (s.withFetchWord 32 w.toNat) = exec i { (s.withFetchWord 32 w.toNat) with
      schedule := [], rsp := some { resp := .ok, data := none } })) ∧
  (∀ (s : State) (w : Word) (op : CoreOp) (rest : List Turn), decode w = .ok op.instr → s.busy = false →
    s.schedule = commandTurn w :: .complete :: rest →
    run 2 s = exec op.instr { s with engine := .running op, schedule := rest,
                                     rsp := some { resp := .ok, data := none } })

/-! ### Whole-machine rules -/

/-- R170, R114: every command completes in every state. And no step of either agent stops with a fault or a refusal: a
transaction always gets a response (R51, R171) and a completion applies its command (R154); that a refused transaction and
a turn of an idle CORE are next states is the model's reading (log entry 8, DEDUCED; log entry 2, DESIGN CHOICE). -/
def Obligations.NothingFaults : Prop :=
  (∀ (i : Instr) (s : State), ∃ t, exec i s = .next t) ∧ (∀ s : State, ∃ u, step s = .next u)

/-- R8: the effect of a command on the memories is a function of the build and the memories alone: the flags, the
responses, the moves to come and the engine do not influence it. -/
def Obligations.EffectDependsOnTheMemoriesOnly : Prop :=
  ∀ (i : Instr) (s s' : State), s'.cfg = s.cfg → SameMemories s s' →
    ∃ t t', exec i s = .next t ∧ exec i s' = .next t' ∧ SameMemories t t'

/-- R183, R199: a block whose run is over waits and keeps all state; that its step answers the same state is the model's form
of waiting (log entry 2, DESIGN CHOICE). -/
def Obligations.IdleBlockWaits : Prop :=
  ∀ s : State, s.runOver → step s = .next s

/-- R54: the byte lanes at a bridge: four lanes make up the word, alpha at the lowest address and red at the highest; and
`STEP`, which stores nothing to `FB`, changes no byte of it. -/
def Obligations.BridgeByteLanes : Prop :=
  (∀ v : Word, lane v 3 ++ lane v 2 ++ lane v 1 ++ lane v 0 = v ∧
    lane v 0 = alphaOf v ∧ lane v 1 = blueOf v ∧ lane v 2 = greenOf v ∧ lane v 3 = redOf v) ∧
  (∀ s : State, ∃ t, exec .step s = .next t ∧ ∀ a, fbByte t a = fbByte s a)

/-! ### Invariants -/

/-- The reset state of an admitted build meets the invariant, that of `CFG0` among them, which
is the machine's reset state (R5, R6, R35; that it is `CFG0`'s is the model's choice, log entry 1). -/
def Obligations.CanonicalFormAtReset : Prop :=
  (∀ c : Config, c.wf = true → (State.resetOf c).Inv) ∧ State.reset = State.resetOf cfg0 ∧ State.reset.Inv

/-- Every step keeps the build admitted and the three memories in canonical form, with no element outside
`0 .. N-1`. -/
def Obligations.CanonicalFormKeptByEveryStep : Prop :=
  ∀ s u : State, s.Inv → step s = .next u → u.Inv

/-- R36: the border invariants hold after reset, in every build. -/
def Obligations.ColdBorderAtReset : Prop :=
  ∀ c : Config, (State.resetOf c).ColdBorder

/-- R36: as long as the HOST does not write `CUR` or `PREV`, every step keeps the border invariants, in the
form that holds of busy states too (R154; log entry 7, DEDUCED). -/
def Obligations.ColdBorderKeptByEveryStep : Prop :=
  ∀ s u : State, s.ColdBorder → s.heatUntouched → step s = .next u → u.ColdBorder ∧ u.heatUntouched

/-- R36: the invariants of every state that a run from reset reaches, for every admitted build and every schedule. R36
claims that `PREV` row `r` equals `CUR` row `r+1` of idle states; `ColdBorder` says it of busy ones too, whose memories are
those from before the acceptance (R154; log entry 7, DEDUCED). -/
def Obligations.ReachableStatesKeepTheInvariants : Prop :=
  ∀ (c : Config) (moves : List Turn) (u : State), c.wf = true →
    Reaches { State.resetOf c with schedule := moves } u →
    u.cfg = c ∧ (∀ i, (u.cur.read i).toNat ≤ 255 ∧ (u.prev.read i).toNat ≤ 255) ∧
    (readReg u .status).extractLsb' 5 27 = 0#27 ∧
    ((∀ t ∈ moves, t.writesHeat = false) → u.ColdBorder)

/-! ### Ports (spec/70_reset_and_hazards.md R201) -/

/-- R201: `rst` high asks for `RESET`, no request for no move; every transaction is asked for by some request, and a
request asks for the transaction of its pins, `2^req_size` bytes wide with the low bits of `req_wdata`; after every
transaction the outputs show its response, a read's data with the other bits zero, and `BUSY`. The model's own choices in
it (log entries 3 and 9, DESIGN CHOICE): a request beside `rst` is no transaction, `rsp_rdata` is 0 for a write. -/
def Obligations.PinsCarryEveryMove : Prop :=
  (∀ p : InputPins, (p.rst = true → turnOfPins p = some .reset) ∧
    (p.rst = false → p.req.valid = false → turnOfPins p = none)) ∧
  (∀ t : Transaction, ∃ p : InputPins, p.rst = false ∧ p.req.valid = true ∧ turnOfPins p = some (.host t)) ∧
  (∀ (p : InputPins) (t : Transaction), turnOfPins p = some (.host t) →
    p.rst = false ∧ p.req.valid = true ∧ t.isWrite = p.req.write ∧ t.addr = p.req.addr ∧
    t.size.bytes = 2 ^ p.req.size.toNat ∧
    (t.isWrite = true → t.word.toNat = p.req.wdata.toNat % 2 ^ (8 * t.size.bytes))) ∧
  (∀ (s u : State) (t : Transaction), hostTransaction t s = .next u →
    (outputPins u).rsp.valid = true ∧ ((outputPins u).rsp.err = true ↔ u.answeredErr) ∧ (outputPins u).busy = u.busy ∧
    (outputPins u).rsp.rdata.toNat < 2 ^ (8 * t.size.bytes) ∧
    (t.isWrite = true → (outputPins u).rsp.rdata = 0#32) ∧
    (∀ d v, u.rsp = some { resp := d, data := some v } → (outputPins u).rsp.rdata = v.line))

/-! ### Symmetry (spec/90_conflicts.md C1) -/

/-- spec/90_conflicts.md C1: "from the all-zero start the field is left-right symmetric for ever": the reset state of
every build is mirror-symmetric, and as long as the HOST does not write `CUR` or `PREV` every step of either agent keeps
it so. -/
def Obligations.MirrorSymmetryKeptByEveryStep : Prop :=
  (∀ c : Config, (State.resetOf c).Mirrored) ∧
  (∀ s u : State, s.Mirrored → s.heatUntouched → step s = .next u → u.Mirrored ∧ u.heatUntouched)
end

