-- ==== Sys2Proof/Laws/State.lean ====
section
/-! SUPPORT. One lemma per field per named update of the state, so that no proof unfolds an update. -/

namespace Sys2Proof.Machine

@[simp] theorem respondOk_cfg (s : State) : (respondOk s).cfg = s.cfg := rfl
@[simp] theorem respondOk_cur (s : State) : (respondOk s).cur = s.cur := rfl
@[simp] theorem respondOk_prev (s : State) : (respondOk s).prev = s.prev := rfl
@[simp] theorem respondOk_fb (s : State) : (respondOk s).fb = s.fb := rfl
@[simp] theorem respondOk_engine (s : State) : (respondOk s).engine = s.engine := rfl
@[simp] theorem respondOk_flags (s : State) : (respondOk s).flags = s.flags := rfl
@[simp] theorem respondOk_schedule (s : State) : (respondOk s).schedule = s.schedule := rfl
@[simp] theorem respondOk_rsp (s : State) : (respondOk s).rsp = some { resp := .ok, data := none } := rfl

@[simp] theorem respondData_cfg (v : Datum) (s : State) : (respondData v s).cfg = s.cfg := rfl
@[simp] theorem respondData_cur (v : Datum) (s : State) : (respondData v s).cur = s.cur := rfl
@[simp] theorem respondData_prev (v : Datum) (s : State) : (respondData v s).prev = s.prev := rfl
@[simp] theorem respondData_fb (v : Datum) (s : State) : (respondData v s).fb = s.fb := rfl
@[simp] theorem respondData_engine (v : Datum) (s : State) : (respondData v s).engine = s.engine := rfl
@[simp] theorem respondData_flags (v : Datum) (s : State) : (respondData v s).flags = s.flags := rfl
@[simp] theorem respondData_schedule (v : Datum) (s : State) : (respondData v s).schedule = s.schedule := rfl
@[simp] theorem respondData_rsp (v : Datum) (s : State) : (respondData v s).rsp = some { resp := .ok, data := some v } := rfl

@[simp] theorem refuse_cfg (f : StickyFlag) (t : Transaction) (s : State) : (refuse f t s).cfg = s.cfg := rfl
@[simp] theorem refuse_cur (f : StickyFlag) (t : Transaction) (s : State) : (refuse f t s).cur = s.cur := rfl
@[simp] theorem refuse_prev (f : StickyFlag) (t : Transaction) (s : State) : (refuse f t s).prev = s.prev := rfl
@[simp] theorem refuse_fb (f : StickyFlag) (t : Transaction) (s : State) : (refuse f t s).fb = s.fb := rfl
@[simp] theorem refuse_engine (f : StickyFlag) (t : Transaction) (s : State) : (refuse f t s).engine = s.engine := rfl
@[simp] theorem refuse_flags (f : StickyFlag) (t : Transaction) (s : State) : (refuse f t s).flags = s.flags.set f := rfl
@[simp] theorem refuse_schedule (f : StickyFlag) (t : Transaction) (s : State) : (refuse f t s).schedule = s.schedule := rfl
@[simp] theorem refuse_rsp (f : StickyFlag) (t : Transaction) (s : State) : (refuse f t s).rsp = some (refusalResponse t) := rfl

@[simp] theorem accept_cfg (op : CoreOp) (s : State) : (accept op s).cfg = s.cfg := rfl
@[simp] theorem accept_cur (op : CoreOp) (s : State) : (accept op s).cur = s.cur := rfl
@[simp] theorem accept_prev (op : CoreOp) (s : State) : (accept op s).prev = s.prev := rfl
@[simp] theorem accept_fb (op : CoreOp) (s : State) : (accept op s).fb = s.fb := rfl
@[simp] theorem accept_engine (op : CoreOp) (s : State) : (accept op s).engine = .running op := rfl
@[simp] theorem accept_flags (op : CoreOp) (s : State) : (accept op s).flags = s.flags := rfl
@[simp] theorem accept_schedule (op : CoreOp) (s : State) : (accept op s).schedule = s.schedule := rfl
@[simp] theorem accept_rsp (op : CoreOp) (s : State) : (accept op s).rsp = s.rsp := rfl

@[simp] theorem finish_cfg (s : State) : (finish s).cfg = s.cfg := rfl
@[simp] theorem finish_cur (s : State) : (finish s).cur = s.cur := rfl
@[simp] theorem finish_prev (s : State) : (finish s).prev = s.prev := rfl
@[simp] theorem finish_fb (s : State) : (finish s).fb = s.fb := rfl
@[simp] theorem finish_engine (s : State) : (finish s).engine = .idle := rfl
@[simp] theorem finish_flags (s : State) : (finish s).flags = s.flags := rfl
@[simp] theorem finish_schedule (s : State) : (finish s).schedule = s.schedule := rfl
@[simp] theorem finish_rsp (s : State) : (finish s).rsp = s.rsp := rfl

@[simp] theorem assertReset_cfg (s : State) : (assertReset s).cfg = s.cfg := rfl
@[simp] theorem assertReset_cur (s : State) : (assertReset s).cur = [] := rfl
@[simp] theorem assertReset_prev (s : State) : (assertReset s).prev = [] := rfl
@[simp] theorem assertReset_fb (s : State) : (assertReset s).fb = [] := rfl
@[simp] theorem assertReset_engine (s : State) : (assertReset s).engine = .idle := rfl
@[simp] theorem assertReset_flags (s : State) : (assertReset s).flags = Flags.clear := rfl
@[simp] theorem assertReset_schedule (s : State) : (assertReset s).schedule = s.schedule := rfl
@[simp] theorem assertReset_rsp (s : State) : (assertReset s).rsp = none := rfl

@[simp] theorem dropTurn_cfg (s : State) : (dropTurn s).cfg = s.cfg := rfl
@[simp] theorem dropTurn_cur (s : State) : (dropTurn s).cur = s.cur := rfl
@[simp] theorem dropTurn_prev (s : State) : (dropTurn s).prev = s.prev := rfl
@[simp] theorem dropTurn_fb (s : State) : (dropTurn s).fb = s.fb := rfl
@[simp] theorem dropTurn_engine (s : State) : (dropTurn s).engine = s.engine := rfl
@[simp] theorem dropTurn_flags (s : State) : (dropTurn s).flags = s.flags := rfl
@[simp] theorem dropTurn_schedule (s : State) : (dropTurn s).schedule = s.schedule.tail := rfl
@[simp] theorem dropTurn_rsp (s : State) : (dropTurn s).rsp = s.rsp := rfl

@[simp] theorem heatStep_cfg (s : State) : (heatStep s).cfg = s.cfg := rfl
@[simp] theorem heatStep_cur (s : State) : (heatStep s).cur = computePhase s.cfg s.prev s.cur := rfl
@[simp] theorem heatStep_prev (s : State) : (heatStep s).prev = scrollPhase s.cfg (computePhase s.cfg s.prev s.cur) s.prev := rfl
@[simp] theorem heatStep_fb (s : State) : (heatStep s).fb = s.fb := rfl
@[simp] theorem heatStep_engine (s : State) : (heatStep s).engine = s.engine := rfl
@[simp] theorem heatStep_flags (s : State) : (heatStep s).flags = s.flags := rfl
@[simp] theorem heatStep_schedule (s : State) : (heatStep s).schedule = s.schedule := rfl
@[simp] theorem heatStep_rsp (s : State) : (heatStep s).rsp = s.rsp := rfl

@[simp] theorem renderFrame_cfg (s : State) : (renderFrame s).cfg = s.cfg := rfl
@[simp] theorem renderFrame_cur (s : State) : (renderFrame s).cur = s.cur := rfl
@[simp] theorem renderFrame_prev (s : State) : (renderFrame s).prev = s.prev := rfl
@[simp] theorem renderFrame_fb (s : State) : (renderFrame s).fb = renderPhase s.cfg s.cur s.fb := rfl
@[simp] theorem renderFrame_engine (s : State) : (renderFrame s).engine = s.engine := rfl
@[simp] theorem renderFrame_flags (s : State) : (renderFrame s).flags = s.flags := rfl
@[simp] theorem renderFrame_schedule (s : State) : (renderFrame s).schedule = s.schedule := rfl
@[simp] theorem renderFrame_rsp (s : State) : (renderFrame s).rsp = s.rsp := rfl

@[simp] theorem clearMemories_cfg (s : State) : (clearMemories s).cfg = s.cfg := rfl
@[simp] theorem clearMemories_cur (s : State) : (clearMemories s).cur = [] := rfl
@[simp] theorem clearMemories_prev (s : State) : (clearMemories s).prev = [] := rfl
@[simp] theorem clearMemories_fb (s : State) : (clearMemories s).fb = [] := rfl
@[simp] theorem clearMemories_engine (s : State) : (clearMemories s).engine = s.engine := rfl
@[simp] theorem clearMemories_flags (s : State) : (clearMemories s).flags = s.flags := rfl
@[simp] theorem clearMemories_schedule (s : State) : (clearMemories s).schedule = s.schedule := rfl
@[simp] theorem clearMemories_rsp (s : State) : (clearMemories s).rsp = s.rsp := rfl

@[simp] theorem resetOf_cfg (c : Config) : (State.resetOf c).cfg = c := rfl
@[simp] theorem resetOf_cur (c : Config) : (State.resetOf c).cur = [] := rfl
@[simp] theorem resetOf_prev (c : Config) : (State.resetOf c).prev = [] := rfl
@[simp] theorem resetOf_fb (c : Config) : (State.resetOf c).fb = [] := rfl
@[simp] theorem resetOf_engine (c : Config) : (State.resetOf c).engine = .idle := rfl
@[simp] theorem resetOf_flags (c : Config) : (State.resetOf c).flags = Flags.clear := rfl
@[simp] theorem resetOf_schedule (c : Config) : (State.resetOf c).schedule = [] := rfl
@[simp] theorem resetOf_rsp (c : Config) : (State.resetOf c).rsp = none := rfl

/-! ### `BUSY` and the flags -/

theorem State.busy_iff (s : State) : s.busy = true ↔ ∃ op, s.engine = .running op := by
  unfold State.busy
  cases s.engine <;> simp [Engine.busy]

theorem State.not_busy_iff (s : State) : s.busy = false ↔ s.engine = .idle := by
  unfold State.busy
  cases s.engine <;> simp [Engine.busy]

theorem State.busy_of_engine {s : State} {op : CoreOp} (h : s.engine = .running op) : s.busy = true := by
  simp [State.busy, h, Engine.busy]

theorem State.idle_of_engine {s : State} (h : s.engine = .idle) : s.busy = false := by
  simp [State.busy, h, Engine.busy]

@[simp] theorem Flags.get_set (f g : StickyFlag) (fl : Flags) :
    (fl.set f).get g = if g = f then true else fl.get g := by
  cases f <;> cases g <;> rfl

@[simp] theorem Flags.get_clear (f : StickyFlag) : Flags.clear.get f = false := by cases f <;> rfl

/-- Two flag records that agree on every flag are equal. -/
theorem Flags.ext_get {a b : Flags} (h : ∀ f, a.get f = b.get f) : a = b := by
  have h1 := h .ill
  have h2 := h .ovr
  have h3 := h .acc
  have h4 := h .bad
  cases a; cases b
  simp_all [Flags.get]

end Sys2Proof.Machine
end

