-- ==== Sys2Proof/Laws/Bus.lean ====
section
/-! SUPPORT. What a HOST transaction, a turn and a step can do, said once; proofs about steps cite these lemmas instead of
unfolding the bus. -/

namespace Sys2Proof.Machine

/-- Everything `MemRead(A, n)` can do (R51). -/
theorem memRead_cases (a : Addr) (n : Size) (s : State) :
    (placeOf s.cfg a n = none ∧ memRead a n s = refuse .bad (.read a n) s) ∨
    (∃ p, placeOf s.cfg a n = some p ∧ p.inMemory = true ∧ s.busy = true ∧
      memRead a n s = refuse .acc (.read a n) s) ∨
    (∃ p, placeOf s.cfg a n = some p ∧ (p.inMemory = false ∨ s.busy = false) ∧
      memRead a n s = respondData (readPlace s p) s) := by
  unfold memRead
  cases hp : placeOf s.cfg a n with
  | none => simp
  | some p => cases hm : p.inMemory <;> cases hb : s.busy <;> simp [hm]

/-- Everything a write to `REG.CMD` can do (R153). -/
theorem commandWrite_cases (t : Transaction) (w : Word) (s : State) :
    (s.busy = true ∧ commandWrite t w s = .next (refuse .ovr t s)) ∨
    (s.engine = .idle ∧ (∃ e, decode w = .error e) ∧ commandWrite t w s = .next (refuse .ill t s)) ∨
    (s.engine = .idle ∧ decode w = .ok .nop ∧ commandWrite t w s = .next (respondOk s)) ∨
    (s.engine = .idle ∧ ∃ op : CoreOp, decode w = .ok op.instr ∧
      commandWrite t w s = .next (accept op (respondOk s))) := by
  unfold commandWrite
  cases he : s.engine with
  | running op => simp [State.busy, he, Engine.busy]
  | idle =>
    cases hd : decode w with
    | error e => simp
    | ok i =>
      cases i
      · simp [startCommand, CoreOp.ofInstr, exec, execNop]
      · exact .inr (.inr (.inr ⟨rfl, .step, rfl, rfl⟩))
      · exact .inr (.inr (.inr ⟨rfl, .render, rfl, rfl⟩))
      · exact .inr (.inr (.inr ⟨rfl, .tick, rfl, rfl⟩))
      · exact .inr (.inr (.inr ⟨rfl, .clear, rfl, rfl⟩))

/-- Everything `MemWrite(A, n, v)` can do (R51). -/
theorem memWrite_cases (a : Addr) (v : Datum) (s : State) :
    (sinkOf s.cfg a v.size = none ∧ memWrite a v s = .next (refuse .bad (.write a v) s)) ∨
    (∃ k, sinkOf s.cfg a v.size = some k ∧ k.inMemory = true ∧ s.busy = true ∧
      memWrite a v s = .next (refuse .acc (.write a v) s)) ∨
    (sinkOf s.cfg a v.size = some .cmd ∧ memWrite a v s = commandWrite (.write a v) v.line s) ∨
    (∃ i, sinkOf s.cfg a v.size = some (.cur i) ∧ s.busy = false ∧
      memWrite a v s = .next (respondOk { s with cur := s.cur.write i (v.line.truncate 8) })) ∨
    (∃ i, sinkOf s.cfg a v.size = some (.prev i) ∧ s.busy = false ∧
      memWrite a v s = .next (respondOk { s with prev := s.prev.write i (v.line.truncate 8) })) ∨
    (∃ i, sinkOf s.cfg a v.size = some (.fb i) ∧ s.busy = false ∧
      memWrite a v s = .next (respondOk { s with fb := s.fb.write i v.line })) := by
  unfold memWrite
  cases hk : sinkOf s.cfg a v.size with
  | none => simp
  | some k => cases k <;> cases s.busy <;> simp [Sink.inMemory, storeSink]

/-- What one HOST transaction can do to the state: it is refused with one flag, it reads, it stores one element, or it
starts a command. -/
inductive HostEffect (s : State) (t : Transaction) : State → Prop where
  | refused (f : StickyFlag) : HostEffect s t (refuse f t s)
  | readOk (a : Addr) (n : Size) (v : Datum) : t = .read a n → HostEffect s t (respondData v s)
  | storeCur (a : Addr) (v : Datum) (i : Nat) (x : Byte) : t = .write a v → sinkOf s.cfg a v.size = some (.cur i) →
      s.busy = false → HostEffect s t (respondOk { s with cur := s.cur.write i x })
  | storePrev (a : Addr) (v : Datum) (i : Nat) (x : Byte) : t = .write a v → sinkOf s.cfg a v.size = some (.prev i) →
      s.busy = false → HostEffect s t (respondOk { s with prev := s.prev.write i x })
  | storeFb (a : Addr) (v : Datum) (i : Nat) (x : Word) : t = .write a v → sinkOf s.cfg a v.size = some (.fb i) →
      s.busy = false → HostEffect s t (respondOk { s with fb := s.fb.write i x })
  | nop : s.engine = .idle → HostEffect s t (respondOk s)
  | started (op : CoreOp) : s.engine = .idle → HostEffect s t (accept op (respondOk s))

/-- A HOST transaction answers a next state, and does to it one of the things `HostEffect` lists. -/
theorem hostTransaction_effect (t : Transaction) (s : State) :
    ∃ u, hostTransaction t s = .next u ∧ HostEffect s t u := by
  cases t with
  | read a n =>
    refine ⟨_, rfl, ?_⟩
    rcases memRead_cases a n s with ⟨-, h⟩ | ⟨p, -, -, -, h⟩ | ⟨p, -, -, h⟩ <;> rw [h]
    · exact .refused _
    · exact .refused _
    · exact .readOk a n _ rfl
  | write a v =>
    change ∃ u, memWrite a v s = .next u ∧ _
    rcases memWrite_cases a v s with ⟨-, h⟩ | ⟨k, -, -, -, h⟩ | ⟨-, h⟩ | ⟨i, hk, hb, h⟩ | ⟨i, hk, hb, h⟩ |
      ⟨i, hk, hb, h⟩
    · exact ⟨_, h, .refused _⟩
    · exact ⟨_, h, .refused _⟩
    · rcases commandWrite_cases (.write a v) v.line s with ⟨-, h'⟩ | ⟨-, -, h'⟩ | ⟨he, -, h'⟩ | ⟨he, op, -, h'⟩
      · exact ⟨_, h.trans h', .refused _⟩
      · exact ⟨_, h.trans h', .refused _⟩
      · exact ⟨_, h.trans h', .nop he⟩
      · exact ⟨_, h.trans h', .started op he⟩
    · exact ⟨_, h, .storeCur a v i _ rfl hk hb⟩
    · exact ⟨_, h, .storePrev a v i _ rfl hk hb⟩
    · exact ⟨_, h, .storeFb a v i _ rfl hk hb⟩

/-- The effect of a completed command on the memories (R154). -/
def CoreOp.effect : CoreOp → State → State
  | .step, s => heatStep s
  | .render, s => renderFrame s
  | .tick, s => renderFrame (heatStep s)
  | .clear, s => clearMemories s

/-- A completion applies the command's effect and clears `BUSY` (R154). -/
theorem exec_instr (op : CoreOp) (s : State) : exec op.instr s = .next (finish (op.effect s)) := by
  cases op <;> rfl

/-- Everything the CORE's turn can do. -/
theorem coreTurn_cases (s : State) :
    (s.engine = .idle ∧ coreTurn s = .next s) ∨
    (∃ op, s.engine = .running op ∧ coreTurn s = .next (finish (op.effect s))) := by
  unfold coreTurn
  cases he : s.engine with
  | idle => exact .inl ⟨rfl, rfl⟩
  | running op => exact .inr ⟨op, rfl, exec_instr op s⟩

/-- Everything a step can do: wait or complete with no move left, or take the move at the head of the schedule. -/
theorem step_cases (s : State) :
    (s.schedule = [] ∧ step s = coreTurn s) ∨
    (∃ rest, s.schedule = .reset :: rest ∧ step s = .next (assertReset (dropTurn s))) ∨
    (∃ t rest, s.schedule = .host t :: rest ∧ step s = hostTransaction t (dropTurn s)) ∨
    (∃ rest, s.schedule = .complete :: rest ∧ step s = coreTurn (dropTurn s)) := by
  unfold step nextMove
  cases hs : s.schedule with
  | nil => exact .inl ⟨rfl, rfl⟩
  | cons t rest =>
    cases t with
    | reset => exact .inr (.inl ⟨rest, rfl, rfl⟩)
    | host t => exact .inr (.inr (.inl ⟨t, rest, rfl, rfl⟩))
    | complete => exact .inr (.inr (.inr ⟨rest, rfl, rfl⟩))

/-! ### Resolved elements are in range (R53) -/

theorem wordElement_lt {off count : Nat} {n : Size} {i : Nat} (h : wordElement off count n = some i) : i < count := by
  unfold wordElement at h
  split at h
  · next hc => simp only [Option.some.injEq] at h; omega
  · simp at h

theorem byteElement_lt {off count : Nat} {n : Size} {i : Nat} (h : byteElement off count n = some i) : i < count := by
  unfold byteElement at h
  split at h
  · next hc => simp only [Option.some.injEq] at h; omega
  · simp at h

/-- The element a write names is an element of its memory. -/
theorem sinkOf_lt {c : Config} {a : Addr} {n : Size} {i : Nat}
    (h : sinkOf c a n = some (.cur i) ∨ sinkOf c a n = some (.prev i) ∨ sinkOf c a n = some (.fb i)) : i < c.n := by
  unfold sinkOf placeOf at h
  cases hs : spaceOf a with
  | none => simp [hs] at h
  | some sp =>
    cases sp <;> simp only [hs] at h
    · split at h
      · cases hr : regAt (offOf a) with
        | none => simp [hr] at h
        | some r => cases r <;> simp [hr, Place.sink] at h
      · simp at h
    · cases he : wordElement (offOf a) c.p.entries n <;> simp [he, Place.sink] at h
    · cases he : byteElement (offOf a) c.n n with
      | none => simp [he] at h
      | some j => simp [he, Place.sink] at h; exact h ▸ byteElement_lt he
    · cases he : byteElement (offOf a) c.n n with
      | none => simp [he] at h
      | some j => simp [he, Place.sink] at h; exact h ▸ byteElement_lt he
    · cases he : wordElement (offOf a) c.n n with
      | none => simp [he] at h
      | some j => simp [he, Place.sink] at h; exact h ▸ wordElement_lt he

/-! ### The width of what is read (R52) -/

theorem wordElement_size {off count : Nat} {n : Size} {i : Nat} (h : wordElement off count n = some i) : n = .four := by
  unfold wordElement at h
  split at h
  · next hc => exact hc.1
  · simp at h

theorem byteElement_size {off count : Nat} {n : Size} {i : Nat} (h : byteElement off count n = some i) : n = .one := by
  unfold byteElement at h
  split at h
  · next hc => exact hc.1
  · simp at h

/-- The datum read at a place has the size of the transfer that names the place. -/
theorem readPlace_size {s : State} {a : Addr} {n : Size} {p : Place} (h : placeOf s.cfg a n = some p) :
    (readPlace s p).size = n := by
  unfold placeOf at h
  split at h
  · split at h
    · next hn =>
      obtain ⟨r, -, rfl⟩ := Option.map_eq_some_iff.1 h
      exact hn.symm
    · simp at h
  · obtain ⟨i, hi, rfl⟩ := Option.map_eq_some_iff.1 h
    exact (wordElement_size hi).symm
  · obtain ⟨i, hi, rfl⟩ := Option.map_eq_some_iff.1 h
    exact (byteElement_size hi).symm
  · obtain ⟨i, hi, rfl⟩ := Option.map_eq_some_iff.1 h
    exact (byteElement_size hi).symm
  · obtain ⟨i, hi, rfl⟩ := Option.map_eq_some_iff.1 h
    exact (wordElement_size hi).symm
  · simp at h

/-! ### The space of a resolved write (R50) -/

/-- A write that names a cell of a heat memory has that memory's space. -/
theorem sinkOf_space {c : Config} {a : Addr} {n : Size} {i : Nat} :
    (sinkOf c a n = some (.cur i) → spaceOf a = some .cur) ∧ (sinkOf c a n = some (.prev i) → spaceOf a = some .prev) := by
  unfold sinkOf placeOf
  cases hs : spaceOf a with
  | none => simp
  | some sp =>
    cases sp <;> simp only
    · split
      · cases hr : regAt (offOf a) with
        | none => simp
        | some r => cases r <;> simp [Place.sink]
      · simp
    · cases wordElement (offOf a) c.p.entries n <;> simp [Place.sink]
    · cases byteElement (offOf a) c.n n <;> simp [Place.sink]
    · cases byteElement (offOf a) c.n n <;> simp [Place.sink]
    · cases wordElement (offOf a) c.n n <;> simp [Place.sink]

end Sys2Proof.Machine
end

