-- ==== Sys2Proof/Laws/Memory.lean ====
section
/-! SUPPORT. What the memory operations do: one read lemma per operation, and that each keeps the canonical form. -/

namespace Sys2Proof.Machine

variable {w : Nat}

@[simp] theorem Memory.read_nil (i : Nat) : Memory.read ([] : Memory w) i = 0#w := rfl

@[simp] theorem Memory.read_cons (k : Nat) (v : BitVec w) (m : Memory w) (i : Nat) :
    Memory.read ((k, v) :: m) i = if k = i then v else Memory.read m i := rfl

/-- An element whose index is not listed reads as an unlisted one. -/
theorem Memory.read_of_not_mem (m : Memory w) (i : Nat) (h : ∀ e ∈ m, e.1 ≠ i) : m.read i = 0#w := by
  induction m with
  | nil => rfl
  | cons e m ih =>
    obtain ⟨k, v⟩ := e
    have hk : k ≠ i := h (k, v) (by simp)
    simp [hk, ih fun e he => h e (by simp [he])]

@[simp] theorem Memory.read_forget (m : Memory w) (i j : Nat) :
    (Memory.forget m i).read j = if j = i then 0#w else m.read j := by
  induction m with
  | nil => simp [Memory.forget]
  | cons e m ih =>
    obtain ⟨k, v⟩ := e
    by_cases hk : k = i
    · subst hk
      have : Memory.forget ((k, v) :: m) k = Memory.forget m k := by simp [Memory.forget]
      rw [this, ih]
      by_cases hj : j = k
      · simp [hj]
      · simp [hj, Ne.symm hj]
    · have : Memory.forget ((k, v) :: m) i = (k, v) :: Memory.forget m i := by simp [Memory.forget, hk]
      rw [this, Memory.read_cons, Memory.read_cons, ih]
      by_cases hj : j = i
      · subst hj; simp [hk]
      · simp [hj]

theorem Memory.forget_keys (m : Memory w) (i : Nat) : ∀ e ∈ Memory.forget m i, e.1 ≠ i := by
  simp [Memory.forget]

theorem Memory.read_place (m : Memory w) (i : Nat) (v : BitVec w) (h : ∀ e ∈ m, e.1 ≠ i) (j : Nat) :
    (Memory.place i v m).read j = if j = i then v else m.read j := by
  induction m with
  | nil => simp [Memory.place, eq_comm (a := i)]
  | cons e m ih =>
    obtain ⟨k, x⟩ := e
    have hk : k ≠ i := h (k, x) (by simp)
    have ih' := ih fun e he => h e (by simp [he])
    by_cases hlt : i < k
    · by_cases hj : j = i
      · simp [Memory.place, hlt, hj]
      · simp [Memory.place, hlt, hj, Ne.symm hj]
    · by_cases hj : j = i
      · subst hj; simp [Memory.place, hlt, ih', hk]
      · simp [Memory.place, hlt, ih', hj]

/-- A read after a write: the value written at its index, every other element as before. -/
@[simp] theorem Memory.read_write (m : Memory w) (i j : Nat) (v : BitVec w) :
    (m.write i v).read j = if j = i then v else m.read j := by
  unfold Memory.write
  split
  · next h => rw [Memory.read_forget]; split <;> simp_all
  · rw [Memory.read_place _ _ _ (Memory.forget_keys m i), Memory.read_forget]; split <;> rfl

theorem Memory.wf_nil (n : Nat) : Memory.wf n ([] : Memory w) := by simp [Memory.wf]

theorem Memory.wf_forget {n : Nat} {m : Memory w} (h : m.wf n) (i : Nat) : (Memory.forget m i).wf n :=
  ⟨h.1.filter _, fun e he => h.2 e (List.mem_of_mem_filter he)⟩

theorem Memory.mem_place (m : Memory w) (i : Nat) (v : BitVec w) (e : Nat × BitVec w) :
    e ∈ Memory.place i v m ↔ e = (i, v) ∨ e ∈ m := by
  induction m with
  | nil => simp [Memory.place]
  | cons x m ih =>
    obtain ⟨k, y⟩ := x
    by_cases hlt : i < k
    · simp [Memory.place, hlt]
    · simp only [Memory.place, hlt, if_false, List.mem_cons, ih]; tauto

theorem Memory.wf_place {n : Nat} {m : Memory w} (h : m.wf n) {i : Nat} (hi : i < n) {v : BitVec w} (hv : v ≠ 0#w)
    (hk : ∀ e ∈ m, e.1 ≠ i) : (Memory.place i v m).wf n := by
  constructor
  · obtain ⟨hs, -⟩ := h
    induction m with
    | nil => simp [Memory.place]
    | cons x m ih =>
      obtain ⟨k, y⟩ := x
      rw [List.pairwise_cons] at hs
      have hki : k ≠ i := hk (k, y) (by simp)
      by_cases hlt : i < k
      · simp only [Memory.place, hlt, if_true, List.pairwise_cons, List.mem_cons, forall_eq_or_imp]
        exact ⟨⟨trivial, fun e he => Nat.lt_trans hlt (hs.1 e he)⟩, hs⟩
      · simp only [Memory.place, hlt, if_false, List.pairwise_cons]
        refine ⟨fun e he => ?_, ih (fun e he => hk e (by simp [he])) hs.2⟩
        rcases (Memory.mem_place m i v e).1 he with rfl | he
        · exact lt_of_le_of_ne (Nat.le_of_not_lt hlt) hki
        · exact hs.1 e he
  · intro e he
    rcases (Memory.mem_place m i v e).1 he with rfl | he
    · exact ⟨hv, hi⟩
    · exact h.2 e he

/-- A write of an element of the memory keeps the canonical form. -/
theorem Memory.wf_write {n : Nat} {m : Memory w} (h : m.wf n) {i : Nat} (hi : i < n) (v : BitVec w) :
    (m.write i v).wf n := by
  unfold Memory.write
  split
  · exact Memory.wf_forget h i
  · next hv => exact Memory.wf_place (Memory.wf_forget h i) hi hv (Memory.forget_keys m i)

theorem Memory.entry_eq_some (i : Nat) (v : BitVec w) (e : Nat × BitVec w) :
    Memory.entry i v = some e ↔ e = (i, v) ∧ v ≠ 0#w := by
  unfold Memory.entry
  split
  · next h => simp [h]
  · next h => simp only [Option.some.injEq, ne_eq, h, not_false_eq_true, and_true]; exact eq_comm

theorem Memory.mem_tabulate (n : Nat) (f : Nat → BitVec w) (e : Nat × BitVec w) :
    e ∈ Memory.tabulate n f ↔ e.1 < n ∧ e.2 = f e.1 ∧ e.2 ≠ 0#w := by
  simp only [Memory.tabulate, List.mem_filterMap, List.mem_range, Memory.entry_eq_some]
  constructor
  · rintro ⟨i, hi, rfl, h⟩; exact ⟨hi, rfl, h⟩
  · rintro ⟨hk, hv, hne⟩; exact ⟨e.1, hk, Prod.ext rfl hv, hv ▸ hne⟩

/-- A tabulated memory is in canonical form. -/
theorem Memory.wf_tabulate (n : Nat) (f : Nat → BitVec w) : (Memory.tabulate n f).wf n := by
  constructor
  · refine List.Pairwise.filterMap (R := (· < ·)) _ ?_ List.pairwise_lt_range
    intro a a' haa b hb b' hb'
    rw [Memory.entry_eq_some] at hb hb'
    rw [hb.1, hb'.1]
    exact haa
  · intro e he
    obtain ⟨h1, -, h3⟩ := (Memory.mem_tabulate n f e).1 he
    exact ⟨h3, h1⟩

/-- In a memory with rising indices a listed element reads as it is listed. -/
theorem Memory.read_of_mem {m : Memory w} (h : m.Pairwise (fun x y => x.1 < y.1)) {e : Nat × BitVec w} (he : e ∈ m) :
    m.read e.1 = e.2 := by
  induction m with
  | nil => simp at he
  | cons x m ih =>
    obtain ⟨k, v⟩ := x
    rw [List.pairwise_cons] at h
    rcases List.mem_cons.1 he with rfl | he
    · simp
    · have : k ≠ e.1 := (h.1 e he).ne
      simp [this, ih h.2 he]

/-- Element `i` of a tabulated memory is `f i`. -/
@[simp] theorem Memory.read_tabulate (n : Nat) (f : Nat → BitVec w) (i : Nat) :
    (Memory.tabulate n f).read i = if i < n then f i else 0#w := by
  by_cases h : i < n ∧ f i ≠ 0#w
  · have hm : (i, f i) ∈ Memory.tabulate n f := (Memory.mem_tabulate n f _).2 ⟨h.1, rfl, h.2⟩
    simpa [h.1] using Memory.read_of_mem (Memory.wf_tabulate n f).1 hm
  · rw [Memory.read_of_not_mem]
    · split
      · next hi => by_contra hne; exact h ⟨hi, fun h0 => hne h0.symm⟩
      · rfl
    · rintro ⟨k, v⟩ he rfl
      obtain ⟨h1, h2, h3⟩ := (Memory.mem_tabulate n f _).1 he
      exact h ⟨h1, h2 ▸ h3⟩

theorem Memory.size_dense (n : Nat) (m : Memory w) : (Memory.dense n m).size = n := by
  induction m with
  | nil => simp [Memory.dense]
  | cons e m ih => simpa [Memory.dense] using ih

/-- The dense copy holds what the memory reads as. -/
@[simp] theorem denseRead_dense (n : Nat) (m : Memory w) (i : Nat) :
    denseRead (Memory.dense n m) i = if i < n then m.read i else 0#w := by
  induction m with
  | nil =>
    unfold denseRead Memory.dense
    by_cases h : i < n <;> simp [h, Array.getD]
  | cons e m ih =>
    obtain ⟨k, v⟩ := e
    have hs := Memory.size_dense n m
    have hd : Memory.dense n ((k, v) :: m) = (Memory.dense n m).setIfInBounds k v := rfl
    rw [hd]
    unfold denseRead at ih ⊢
    rw [Memory.read_cons]
    simp only [Array.getD_eq_getD_getElem?, Array.getElem?_setIfInBounds, hs] at ih ⊢
    by_cases hki : k = i
    · subst hki; by_cases hi : k < n <;> simp [hi]
    · simp [hki, ih]

/-- An index outside the memory reads 0. -/
theorem Memory.read_of_le {n : Nat} {m : Memory w} (h : m.wf n) {i : Nat} (hi : n ≤ i) : m.read i = 0#w :=
  Memory.read_of_not_mem m i fun e he => by have := (h.2 e he).2; omega

/-- Memories in canonical form that read alike are equal data. -/
theorem Memory.ext_read {n : Nat} {m m' : Memory w} (h : m.wf n) (h' : m'.wf n)
    (hr : ∀ i, i < n → m.read i = m'.read i) : m = m' := by
  have hmem : ∀ {a b : Memory w}, a.wf n → b.wf n → (∀ i, i < n → a.read i = b.read i) → ∀ e ∈ a, e ∈ b := by
    intro a b ha hb hab e he
    obtain ⟨hv, hi⟩ := ha.2 e he
    have h1 : b.read e.1 = e.2 := by rw [← hab e.1 hi]; exact Memory.read_of_mem ha.1 he
    by_contra hne
    by_cases hk : ∃ f ∈ b, f.1 = e.1
    · obtain ⟨f, hf, hfk⟩ := hk
      have h2 := Memory.read_of_mem hb.1 hf
      rw [hfk, h1] at h2
      exact hne (by rwa [Prod.ext hfk.symm h2])
    · rw [Memory.read_of_not_mem b e.1 (fun f hf hfk => hk ⟨f, hf, hfk⟩)] at h1
      exact hv h1.symm
  have hperm : m.Perm m' := by
    have nodup : ∀ {a : Memory w}, a.wf n → a.Nodup := fun ha => ha.1.imp fun h => by rintro rfl; exact absurd h (lt_irrefl _)
    exact (List.perm_ext_iff_of_nodup (nodup h) (nodup h')).2 fun e =>
      ⟨hmem h h' hr e, hmem h' h (fun i hi => (hr i hi).symm) e⟩
  exact hperm.eq_of_pairwise (fun a b _ _ hab hba => absurd (Nat.lt_trans hab hba) (lt_irrefl _)) h.1 h'.1

end Sys2Proof.Machine
end

