-- ==== Sys2Proof/Laws/Heat.lean ====
section
/-! SUPPORT. What the phases of `STEP` and `RENDER` leave in each element: one read lemma per phase. -/

namespace Sys2Proof.Machine

/-! ### Indices (R11) -/

theorem row_idx (c : Config) {r k : Nat} (hk : k < c.w) : row c (idx c r k) = r := by
  have hw : 0 < c.w := by omega
  simp [row, idx, Nat.add_comm, Nat.add_mul_div_right _ _ hw, Nat.div_eq_of_lt hk]

theorem col_idx (c : Config) {r k : Nat} (hk : k < c.w) : col c (idx c r k) = k := by
  simp [col, idx, Nat.add_comm, Nat.add_mul_mod_self_right, Nat.mod_eq_of_lt hk]

theorem interiorAt_idx (c : Config) {r k : Nat} (hk : k < c.w) : interiorAt c (idx c r k) = interior c r k := by
  rw [interiorAt, row_idx c hk, col_idx c hk]

theorem idx_lt (c : Config) {r k : Nat} (hr : r < c.h) (hk : k < c.w) : idx c r k < c.n := by
  unfold idx Config.n
  calc r * c.w + k < r * c.w + c.w := by omega
    _ = (r + 1) * c.w := by ring
    _ ≤ c.h * c.w := Nat.mul_le_mul_right _ hr
    _ = c.w * c.h := Nat.mul_comm _ _

theorem idx_succ (c : Config) (r k : Nat) : idx c (r + 1) k = idx c r k + c.w := by
  unfold idx; ring

/-- Every index below `N` is the index of one cell of the grid. -/
theorem idx_row_col (c : Config) (i : Nat) : idx c (row c i) (col c i) = i := by
  unfold idx row col
  have := Nat.div_add_mod i c.w
  rw [Nat.mul_comm]; exact this

theorem w_pos_of_lt (c : Config) {i : Nat} (hi : i < c.n) : 0 < c.w := by
  rcases Nat.eq_zero_or_pos c.w with h | h
  · simp [Config.n, h] at hi
  · exact h

theorem col_lt (c : Config) {i : Nat} (hi : i < c.n) : col c i < c.w := Nat.mod_lt _ (w_pos_of_lt c hi)

theorem row_lt (c : Config) {i : Nat} (hi : i < c.n) : row c i < c.h :=
  Nat.div_lt_of_lt_mul hi

theorem interior_iff (c : Config) (r k : Nat) :
    interior c r k = true ↔ 1 ≤ r ∧ r + 2 ≤ c.h ∧ 1 ≤ k ∧ k + 2 ≤ c.w := by
  simp [interior, and_assoc]

/-- Every neighbour of an interior cell is a cell of the memory (R103). -/
theorem neighbour_lt (c : Config) {i : Nat} (hi : interiorAt c i = true) : i + c.w + 1 < c.n := by
  obtain ⟨-, h2, -, h4⟩ := (interior_iff c _ _).1 hi
  have h := idx_lt c (r := row c i + 1) (k := col c i + 1) (by omega) (by omega)
  have e : idx c (row c i + 1) (col c i + 1) = idx c (row c i) (col c i) + c.w + 1 := by unfold idx; ring
  rwa [e, idx_row_col] at h

/-- The neighbour sum reads the eight neighbours only. -/
theorem nsum_congr (c : Config) {rd rd' : Nat → Byte} {i : Nat} (h : ∀ j, j ≤ i + c.w + 1 → rd j = rd' j) :
    nsum c rd i = nsum c rd' i := by
  unfold nsum
  rw [h (i - c.w - 1) (by omega), h (i - c.w) (by omega), h (i - c.w + 1) (by omega), h (i - 1) (by omega),
    h (i + 1) (by omega), h (i + c.w - 1) (by omega), h (i + c.w) (by omega), h (i + c.w + 1) (by omega)]

/-! ### `STEP` -/

/-- `CUR` after phase 1 (R102, R107, R108). -/
theorem read_computePhase (c : Config) (prev cur : Memory 8) (i : Nat) (hi : i < c.n) :
    (computePhase c prev cur).read i = if interiorAt c i = true then cellValue c prev.read i else cur.read i := by
  simp only [computePhase, Memory.read_tabulate, hi, if_true, denseRead_dense]
  split
  · next h =>
    have hn := neighbour_lt c h
    unfold cellValue
    rw [nsum_congr c (rd := denseRead (prev.dense c.n)) (rd' := prev.read)]
    intro j hj
    rw [denseRead_dense, if_pos (by omega)]
  · rfl

/-- `PREV` after phase 2 (R109, R110). -/
theorem read_scrollPhase (c : Config) (cur prev : Memory 8) (j : Nat) (hj : j < c.n) :
    (scrollPhase c cur prev).read j = if j + c.w < c.n then cur.read (j + c.w) else prev.read j := by
  simp only [scrollPhase, Memory.read_tabulate, hj, if_true, denseRead_dense]
  split <;> simp_all

theorem wf_computePhase (c : Config) (prev cur : Memory 8) : (computePhase c prev cur).wf c.n := Memory.wf_tabulate _ _

theorem wf_scrollPhase (c : Config) (cur prev : Memory 8) : (scrollPhase c cur prev).wf c.n := Memory.wf_tabulate _ _

/-! ### `RENDER` -/

/-- `FB` after `RENDER` (R136, R137). -/
theorem read_renderPhase (c : Config) (cur : Memory 8) (fb : Memory 32) (i : Nat) (hi : i < c.n) :
    (renderPhase c cur fb).read i = if c.w ≤ i then color c (cur.read (i - c.w)) else fb.read i := by
  have : i - c.w < c.n := by omega
  simp only [renderPhase, Memory.read_tabulate, hi, if_true, denseRead_dense, this]

theorem wf_renderPhase (c : Config) (cur : Memory 8) (fb : Memory 32) : (renderPhase c cur fb).wf c.n :=
  Memory.wf_tabulate _ _

/-! ### The loops of the pseudocode -/

/-- A loop leaves in each element what the last visit to it stored, and the old value where none went; stated for visits
that agree on what each element gets. -/
theorem read_forEach {α : Type} {w : Nat} (order : List α) (dst : α → Nat) (val : α → BitVec w) (m : Memory w)
    (f : Nat → BitVec w) (hf : ∀ x ∈ order, val x = f (dst x)) (j : Nat) :
    (forEach order dst val m).read j =
      if j ∈ order.map dst then f j else m.read j := by
  unfold forEach
  induction order generalizing m with
  | nil => simp
  | cons x xs ih =>
    rw [List.foldl_cons, ih _ fun y hy => hf y (by simp [hy])]
    by_cases hj : j ∈ xs.map dst
    · rw [if_pos hj, if_pos (by simpa using Or.inr (by simpa using hj))]
    · rw [if_neg hj, Memory.read_write]
      by_cases hx : j = dst x
      · subst hx; simp [hf x (by simp)]
      · rw [if_neg hx, if_neg]
        simp only [List.map_cons, List.mem_cons, not_or]
        exact ⟨hx, hj⟩

/-- A loop over elements of the memory keeps the canonical form. -/
theorem wf_forEach {α : Type} {w n : Nat} (order : List α) (dst : α → Nat) (val : α → BitVec w) (m : Memory w)
    (hm : m.wf n) (hd : ∀ x ∈ order, dst x < n) :
    Memory.wf n (forEach order dst val m) := by
  unfold forEach
  induction order generalizing m with
  | nil => exact hm
  | cons x xs ih => exact ih _ (Memory.wf_write hm (hd x (by simp)) _) fun y hy => hd y (by simp [hy])

/-! ### Rows and columns -/

theorem interior_lt {c : Config} {r k : Nat} (h : interior c r k = true) : r < c.h ∧ k < c.w := by
  obtain ⟨h1, h2, h3, h4⟩ := (interior_iff c r k).1 h
  omega

theorem border_iff {c : Config} {r k : Nat} : border c r k = true ↔ ¬ interior c r k = true := by
  simp [border]

/-- Every element of a memory is the cell of one row and column. -/
theorem exists_idx {c : Config} {i : Nat} (hi : i < c.n) : ∃ r k, r < c.h ∧ k < c.w ∧ idx c r k = i :=
  ⟨row c i, col c i, row_lt c hi, col_lt c hi, idx_row_col c i⟩

theorem idx_inj {c : Config} {r k r' k' : Nat} (hk : k < c.w) (hk' : k' < c.w) (h : idx c r k = idx c r' k') :
    r = r' ∧ k = k' := by
  have h1 := row_idx c (r := r) hk
  have h3 := col_idx c (r := r) hk
  rw [h] at h1 h3
  exact ⟨h1.symm.trans (row_idx c hk'), h3.symm.trans (col_idx c hk')⟩

/-- A cell has one below it exactly when its row is not the last. -/
theorem idx_add_w_lt_iff {c : Config} {r k : Nat} (hr : r < c.h) (hk : k < c.w) :
    idx c r k + c.w < c.n ↔ r + 1 < c.h := by
  rw [← idx_succ]
  constructor
  · intro h
    by_contra hn
    have e : r + 1 = c.h := by omega
    rw [e] at h
    unfold idx Config.n at h
    rw [Nat.mul_comm] at h
    omega
  · intro h
    exact idx_lt c h hk

/-- The flat indices of the eight neighbours of an interior cell are those of their rows and columns (R103). -/
theorem neighbour_idx {c : Config} {r k : Nat} (h : interior c r k = true) :
    idx c r k - c.w - 1 = idx c (r - 1) (k - 1) ∧ idx c r k - c.w = idx c (r - 1) k ∧
    idx c r k - c.w + 1 = idx c (r - 1) (k + 1) ∧ idx c r k - 1 = idx c r (k - 1) ∧
    idx c r k + 1 = idx c r (k + 1) ∧ idx c r k + c.w - 1 = idx c (r + 1) (k - 1) ∧
    idx c r k + c.w = idx c (r + 1) k ∧ idx c r k + c.w + 1 = idx c (r + 1) (k + 1) := by
  obtain ⟨h1, h2, h3, h4⟩ := (interior_iff c r k).1 h
  obtain ⟨r, rfl⟩ : ∃ q, r = q + 1 := ⟨r - 1, by omega⟩
  obtain ⟨k, rfl⟩ : ∃ q, k = q + 1 := ⟨k - 1, by omega⟩
  simp only [idx, Nat.add_sub_cancel, Nat.add_mul, Nat.one_mul]
  generalize r * c.w = m
  omega

/-! ### The cell rule in whole numbers -/

/-- The 11-bit sum is exact (R103). -/
theorem nsum_toNat (c : Config) (m : Memory 8) {r k : Nat} (h : interior c r k = true) :
    (nsum c m.read (idx c r k)).toNat = neighbourSum c m r k ∧ neighbourSum c m r k ≤ 2040 := by
  obtain ⟨e1, e2, e3, e4, e5, e6, e7, e8⟩ := neighbour_idx h
  unfold nsum neighbourSum cellNat
  rw [e1, e3, e2, e4, e5, e6, e8, e7]
  have b := fun i => (m.read i).isLt
  have b1 := b (idx c (r - 1) (k - 1))
  have b2 := b (idx c (r - 1) k)
  have b3 := b (idx c (r - 1) (k + 1))
  have b4 := b (idx c r (k - 1))
  have b5 := b (idx c r (k + 1))
  have b6 := b (idx c (r + 1) (k - 1))
  have b7 := b (idx c (r + 1) k)
  have b8 := b (idx c (r + 1) (k + 1))
  simp only [BitVec.toNat_add, BitVec.truncate_eq_setWidth, BitVec.toNat_setWidth]
  omega

theorem average_toNat (sum : BitVec 11) : (sum.extractLsb' 3 8).toNat = sum.toNat / 8 := by
  have := sum.isLt
  simp [BitVec.extractLsb'_toNat, Nat.shiftRight_eq_div_pow]
  omega

theorem cool_toNat (band : Bool) (sum : BitVec 11) :
    (cool band sum (sum.extractLsb' 3 8)).toNat = cooledValue band sum.toNat := by
  have hs := sum.isLt
  have hlow : sum.extractLsb' 0 2 = 0#2 ↔ sum.toNat % 4 = 0 := by
    rw [← BitVec.toNat_inj]
    simp [BitVec.extractLsb'_toNat]
  have hpos : sum.extractLsb' 3 8 ≠ 0#8 ↔ 0 < sum.toNat / 8 := by
    rw [Ne, ← BitVec.toNat_inj, average_toNat]
    simp
  unfold cool cooledValue
  simp only [hlow, hpos]
  split
  · rw [BitVec.toNat_sub, average_toNat]
    simp
    omega
  · exact average_toNat sum

/-- The stored value of a cell is the whole-number rule on its sum (R104 to R106). -/
theorem cellOfSum_toNat (c : Config) (band : Bool) (sum : BitVec 11) :
    (cellOfSum c band sum).toNat = storedValue c.k.toNat c.t.toNat band sum.toNat := by
  have h1 : cooledValue band sum.toNat < 256 := by
    rw [← cool_toNat]
    exact (cool _ _ _).isLt
  unfold cellOfSum brighten storedValue
  rw [cool_toNat]
  split
  · rw [BitVec.toNat_sub, cool_toNat]
    omega
  · exact cool_toNat band sum

/-! ### The effects by rows and columns -/

theorem read_heatStep_cur (s : State) {r k : Nat} (hr : r < s.cfg.h) (hk : k < s.cfg.w) :
    (heatStep s).cur.read (idx s.cfg r k) =
      if interior s.cfg r k = true
      then cellOfSum s.cfg (inBand s.cfg r) (nsum s.cfg s.prev.read (idx s.cfg r k))
      else s.cur.read (idx s.cfg r k) := by
  rw [heatStep_cur, read_computePhase _ _ _ _ (idx_lt _ hr hk), interiorAt_idx _ hk]
  simp only [cellValue, row_idx _ hk]

theorem read_heatStep_prev (s : State) {i : Nat} (hi : i < s.cfg.n) :
    (heatStep s).prev.read i =
      if i + s.cfg.w < s.cfg.n then (heatStep s).cur.read (i + s.cfg.w) else s.prev.read i := by
  rw [heatStep_prev, read_scrollPhase _ _ _ _ hi, heatStep_cur]

theorem read_renderFrame (s : State) {i : Nat} (hi : i < s.cfg.n) :
    (renderFrame s).fb.read i =
      if s.cfg.w ≤ i then color s.cfg (s.cur.read (i - s.cfg.w)) else s.fb.read i := by
  rw [renderFrame_fb, read_renderPhase _ _ _ _ hi]

/-! ### The cells that the loops visit (R100, R135) -/

theorem mem_drop_range (n a j : Nat) : j ∈ (List.range n).drop a ↔ a ≤ j ∧ j < n := by
  rw [List.mem_drop_iff_getElem]
  constructor
  · rintro ⟨i, hi, rfl⟩
    simp at hi ⊢
    omega
  · rintro ⟨h1, h2⟩
    exact ⟨j - a, by simp; omega, by simp; omega⟩

theorem mem_interiorCells (c : Config) (x : Nat × Nat) : x ∈ interiorCells c ↔ interior c x.1 x.2 = true := by
  obtain ⟨r, k⟩ := x
  rw [interior_iff]
  simp only [interiorCells, List.mem_flatMap, List.mem_map, mem_drop_range, Prod.mk.injEq]
  constructor
  · rintro ⟨a, ha, b, hb, rfl, rfl⟩
    omega
  · rintro ⟨h1, h2, h3, h4⟩
    exact ⟨r, by omega, k, by omega, rfl, rfl⟩

theorem mem_scrollCells (c : Config) (x : Nat × Nat) : x ∈ scrollCells c ↔ x.1 + 1 < c.h ∧ x.2 < c.w := by
  obtain ⟨r, k⟩ := x
  simp only [scrollCells, List.mem_flatMap, List.mem_map, List.mem_range, Prod.mk.injEq]
  constructor
  · rintro ⟨a, ha, b, hb, rfl, rfl⟩
    omega
  · rintro ⟨h1, h2⟩
    exact ⟨r, by omega, k, by omega, rfl, rfl⟩

theorem mem_renderCells (c : Config) (i : Nat) : i ∈ renderCells c ↔ c.w ≤ i ∧ i < c.n := mem_drop_range _ _ _

end Sys2Proof.Machine
end

