-- ==== Sys2Proof/Laws/PerInstr.lean ====
section
/-! SUPPORT. Statements made once per command, as syntax. -/

namespace Sys2Proof.Laws.FormatC

/-- The command word of `i` has format `C` (R80): `RSV` zero, `OP` the command's opcode, and `i` is well-formed. -/
def Statement (i : Instr) : Prop := i.wf = true ∧ rsvField (encode i) = 0#28 ∧ opField (encode i) = opcode i

theorem nop : Statement .nop := ⟨rfl, rfl, rfl⟩
theorem step : Statement .step := ⟨rfl, rfl, rfl⟩
theorem render : Statement .render := ⟨rfl, rfl, rfl⟩
theorem tick : Statement .tick := ⟨rfl, rfl, rfl⟩
theorem clear : Statement .clear := ⟨rfl, rfl, rfl⟩

end Sys2Proof.Laws.FormatC
end

