-- ==== Sys2Proof/Laws/Ports.lean ====
section
/-! SUPPORT. What the pins ask for and show: one lemma per case of each view (spec/70_reset_and_hazards.md R201). -/

namespace Sys2Proof.Machine

@[simp] theorem turnOfPins_reset (q : RequestPins) : turnOfPins { rst := true, req := q } = some .reset := rfl

@[simp] theorem turnOfPins_request (q : RequestPins) :
    turnOfPins { rst := false, req := q } = (transactionOfPins q).map .host := rfl

theorem transactionOfPins_no_request {q : RequestPins} (h : q.valid = false) : transactionOfPins q = none := by
  simp [transactionOfPins, h]

theorem transactionOfPins_request {q : RequestPins} {n : Size} (hv : q.valid = true) (hn : sizeOfPins q.size = some n) :
    transactionOfPins q = some (if q.write then .write q.addr (datumOfPins q.wdata n) else .read q.addr n) := by
  simp [transactionOfPins, hv, hn]

theorem responsePins_none {s : State} (h : s.rsp = none) :
    responsePins s = { valid := false, err := false, rdata := 0#32 } := by
  simp [responsePins, h]

theorem responsePins_some {s : State} {r : Response} (h : s.rsp = some r) :
    responsePins s = { valid := true, err := r.resp == .err, rdata := (r.data.map Datum.line).getD 0#32 } := by
  simp [responsePins, h]

@[simp] theorem outputPins_rsp (s : State) : (outputPins s).rsp = responsePins s := rfl
@[simp] theorem outputPins_busy (s : State) : (outputPins s).busy = s.busy := rfl

end Sys2Proof.Machine
end

