-- ==== Sys2Proof/Laws/Registers.lean ====
section
/-! SUPPORT. The fields of the register words (spec/10_state.md R29 to R31) and the address map in whole numbers
(spec/20_memory.md R50). -/

namespace Sys2Proof.Machine

/-! ### `REG.STATUS` -/

theorem statusWord_busy (b : Bool) (fl : Flags) : (statusWord b fl).getLsbD 0 = b := by
  obtain ⟨i, o, a, m⟩ := fl
  cases b <;> cases i <;> cases o <;> cases a <;> cases m <;> rfl

/-- Bits 1 to 4 are the sticky flags, bits 31:5 are zero. -/
theorem statusWord_fields (b : Bool) (fl : Flags) :
    (statusWord b fl).getLsbD 1 = fl.ill ∧ (statusWord b fl).getLsbD 2 = fl.ovr ∧
    (statusWord b fl).getLsbD 3 = fl.acc ∧ (statusWord b fl).getLsbD 4 = fl.bad ∧
    (statusWord b fl).extractLsb' 5 27 = 0#27 := by
  obtain ⟨i, o, a, m⟩ := fl
  cases b <;> cases i <;> cases o <;> cases a <;> cases m <;> exact ⟨rfl, rfl, rfl, rfl, rfl⟩

/-! ### `REG.DIM` and `REG.PARAM` -/

theorem dimWord_low (c : Config) : (dimWord c).extractLsb' 0 16 = BitVec.ofNat 16 c.w := by
  unfold dimWord
  ext i hi
  rw [BitVec.getElem_extractLsb', BitVec.getLsbD_append]
  simp [hi, BitVec.getLsbD_eq_getElem]

theorem dimWord_high (c : Config) : (dimWord c).extractLsb' 16 16 = BitVec.ofNat 16 c.h := by
  unfold dimWord
  ext i hi
  rw [BitVec.getElem_extractLsb', BitVec.getLsbD_append]
  simp [hi, BitVec.getLsbD_eq_getElem]

theorem paramWord_getLsbD (c : Config) (i : Nat) :
    (paramWord c).getLsbD i =
      if i < 8 then (BitVec.ofNat 8 c.b).getLsbD i
      else if i < 16 then c.k.getLsbD (i - 8)
      else if i < 24 then c.t.getLsbD (i - 16)
      else i == 24 && c.p == .p256 := by
  unfold paramWord
  rw [BitVec.getLsbD_append, BitVec.getLsbD_append, BitVec.getLsbD_append, BitVec.getLsbD_append]
  simp only [BitVec.getLsbD_ofBool, BitVec.getLsbD_zero]
  by_cases h1 : i < 8
  · simp [h1]
  by_cases h2 : i < 16
  · have : i - 8 < 8 := by omega
    simp [h1, h2, this]
  by_cases h3 : i < 24
  · have e1 : ¬ i - 8 < 8 := by omega
    have e2 : i - 8 - 8 < 8 := by omega
    have e3 : i - 8 - 8 = i - 16 := by omega
    simp [h1, h2, h3, e1, e3]
    omega
  · have e1 : ¬ i - 8 < 8 := by omega
    have e2 : ¬ i - 8 - 8 < 8 := by omega
    by_cases h4 : i = 24
    · subst h4; simp
    · have e4 : ¬ i - (8 + (8 + 8)) = 0 := by omega
      have e5 : (i == 24) = false := by simp [h4]
      have e6 : ¬ i - 16 < 8 := by omega
      simp [h1, h2, h3, e1, e4, e5, e6, Nat.sub_sub]

theorem paramWord_b (c : Config) : (paramWord c).extractLsb' 0 8 = BitVec.ofNat 8 c.b := by
  ext i hi
  rw [BitVec.getElem_extractLsb', paramWord_getLsbD]
  simp [hi, BitVec.getLsbD_eq_getElem]

theorem paramWord_k (c : Config) : (paramWord c).extractLsb' 8 8 = c.k := by
  ext i hi
  rw [BitVec.getElem_extractLsb', paramWord_getLsbD, if_neg (by omega), if_pos (by omega)]
  simp [BitVec.getLsbD_eq_getElem, hi]

theorem paramWord_t (c : Config) : (paramWord c).extractLsb' 16 8 = c.t := by
  ext i hi
  rw [BitVec.getElem_extractLsb', paramWord_getLsbD, if_neg (by omega), if_neg (by omega), if_pos (by omega)]
  simp [BitVec.getLsbD_eq_getElem, hi]

theorem paramWord_psel (c : Config) : (paramWord c).getLsbD 24 = (c.p == .p256) := by
  rw [paramWord_getLsbD]
  simp

theorem paramWord_zero (c : Config) : (paramWord c).extractLsb' 25 7 = 0#7 := by
  ext i hi
  rw [BitVec.getElem_extractLsb', paramWord_getLsbD, if_neg (by omega), if_neg (by omega), if_neg (by omega)]
  have : ¬ 25 + i = 24 := by omega
  simp [this]

/-! ### The address map in whole numbers -/

theorem space_toNat (a : Addr) : (a.extractLsb' 24 3).toNat = a.toNat / 2 ^ 24 := by
  have := a.isLt
  simp [BitVec.extractLsb'_toNat, Nat.shiftRight_eq_div_pow]
  omega

theorem offOf_eq (a : Addr) : offOf a = a.toNat % 2 ^ 24 := by
  simp [offOf, BitVec.extractLsb'_toNat]

theorem spaceOf_eq (a : Addr) :
    spaceOf a =
      if a.toNat / 2 ^ 24 = 0 then some .reg
      else if a.toNat / 2 ^ 24 = 1 then some .pal
      else if a.toNat / 2 ^ 24 = 2 then some .cur
      else if a.toNat / 2 ^ 24 = 3 then some .prev
      else if a.toNat / 2 ^ 24 = 4 then some .fb
      else none := by
  unfold spaceOf
  simp only [← BitVec.toNat_inj, space_toNat]
  rfl

theorem palAddr_toNat {k : Nat} (h : k < 256) : (palAddr k).toNat = 0x1000000 + 4 * k := by
  unfold palAddr; rw [BitVec.toNat_ofNat]; omega

theorem curAddr_toNat {i : Nat} (h : i < 2 ^ 22) : (curAddr i).toNat = 0x2000000 + i := by
  unfold curAddr; rw [BitVec.toNat_ofNat]; omega

theorem prevAddr_toNat {i : Nat} (h : i < 2 ^ 22) : (prevAddr i).toNat = 0x3000000 + i := by
  unfold prevAddr; rw [BitVec.toNat_ofNat]; omega

theorem fbAddr_toNat {i : Nat} (h : i < 2 ^ 22) : (fbAddr i).toNat = 0x4000000 + 4 * i := by
  unfold fbAddr; rw [BitVec.toNat_ofNat]; omega

/-- An admitted build has at most `2^22` cells (R5). -/
theorem n_le_of_wf {c : Config} (h : c.wf = true) : c.n ≤ 2 ^ 22 := by
  simp [Config.wf, Config.gridOk] at h
  omega

theorem placeOf_palAddr (c : Config) {k : Nat} (hk : k < c.p.entries) : placeOf c (palAddr k) .four = some (.pal k) := by
  have h : k < 256 := by cases hp : c.p <;> simp [hp, PalSize.entries] at hk <;> omega
  unfold placeOf
  rw [spaceOf_eq, offOf_eq, palAddr_toNat h]
  have e1 : (0x1000000 + 4 * k) / 2 ^ 24 = 1 := by omega
  have e2 : (0x1000000 + 4 * k) % 2 ^ 24 = 4 * k := by omega
  rw [e1, e2]
  simp [wordElement, hk]

theorem placeOf_curAddr (c : Config) {i : Nat} (h : i < 2 ^ 22) (hi : i < c.n) :
    placeOf c (curAddr i) .one = some (.cur i) := by
  unfold placeOf
  rw [spaceOf_eq, offOf_eq, curAddr_toNat h]
  have e1 : (0x2000000 + i) / 2 ^ 24 = 2 := by omega
  have e2 : (0x2000000 + i) % 2 ^ 24 = i := by omega
  rw [e1, e2]
  simp [byteElement, hi]

theorem placeOf_prevAddr (c : Config) {i : Nat} (h : i < 2 ^ 22) (hi : i < c.n) :
    placeOf c (prevAddr i) .one = some (.prev i) := by
  unfold placeOf
  rw [spaceOf_eq, offOf_eq, prevAddr_toNat h]
  have e1 : (0x3000000 + i) / 2 ^ 24 = 3 := by omega
  have e2 : (0x3000000 + i) % 2 ^ 24 = i := by omega
  rw [e1, e2]
  simp [byteElement, hi]

theorem placeOf_fbAddr (c : Config) {i : Nat} (h : i < 2 ^ 22) (hi : i < c.n) :
    placeOf c (fbAddr i) .four = some (.fb i) := by
  unfold placeOf
  rw [spaceOf_eq, offOf_eq, fbAddr_toNat h]
  have e1 : (0x4000000 + 4 * i) / 2 ^ 24 = 4 := by omega
  have e2 : (0x4000000 + 4 * i) % 2 ^ 24 = 4 * i := by omega
  rw [e1, e2]
  simp [wordElement, hi]

end Sys2Proof.Machine
end

