-- ==== Sys2Proof/Laws/Run.lean ====
section
/-! SUPPORT. Runs of several steps. -/

namespace Sys2Proof.Machine

@[simp] theorem run_zero (s : State) : run 0 s = .next s := rfl

theorem run_succ_eq (k : Nat) (s : State) :
    run (k + 1) s =
      match step s with
      | .next u => run k u
      | .fault r => .fault r
      | .refused r => .refused r := by
  have hs : Sys2Proof.core.step s = step s := rfl
  simp only [run, Host.Core.run]
  rw [hs]
  cases step s <;> rfl

/-- A run of `k + 1` steps whose first step answers `u` is a run of `k` steps from `u`. -/
theorem run_succ {s u : State} (h : step s = .next u) (k : Nat) : run (k + 1) s = run k u := by
  rw [run_succ_eq, h]

/-- Runs compose. -/
theorem run_add {s u : State} (k m : Nat) (h : run k s = .next u) : run (k + m) s = run m u := by
  induction k generalizing s with
  | zero => cases h; simp
  | succ k ih =>
    rw [run_succ_eq] at h
    cases ht : step s with
    | next t =>
      rw [ht] at h
      rw [Nat.add_right_comm, run_succ ht, ih h]
    | fault r => rw [ht] at h; cases h
    | refused r => rw [ht] at h; cases h

/-- What every step keeps holds of every state reached. -/
theorem Reaches.keeps {P : State → Prop} (hstep : ∀ s u, P s → Machine.step s = .next u → P u) {s t : State}
    (h : Reaches s t) (hs : P s) : P t := by
  induction h with
  | here => exact hs
  | more _ hu ih => exact hstep _ _ ih hu

/-! ### Properties of the heat fields -/

/-- While the HOST does not write `CUR` or `PREV`, a step keeps every property of the build and the two heat fields that
holds of zero fields and that `STEP` keeps. -/
theorem step_keeps_heat {P : State → Prop}
    (congr : ∀ s u : State, P s → u.cfg = s.cfg → u.cur = s.cur → u.prev = s.prev → P u)
    (zero : ∀ s : State, s.cur = [] → s.prev = [] → P s) (heat : ∀ s : State, P s → P (heatStep s))
    {s u : State} (h : P s) (hq : s.heatUntouched) (hu : Machine.step s = .next u) : P u ∧ u.heatUntouched := by
  have core : ∀ {s u : State}, P s → coreTurn s = .next u → P u ∧ u.schedule = s.schedule := by
    intro s u h hu
    rcases coreTurn_cases s with ⟨-, h'⟩ | ⟨op, -, h'⟩ <;> rw [h'] at hu <;> cases hu
    · exact ⟨h, rfl⟩
    · cases op with
      | step => exact ⟨congr _ _ (heat s h) rfl rfl rfl, rfl⟩
      | render => exact ⟨congr _ _ h rfl rfl rfl, rfl⟩
      | tick => exact ⟨congr _ _ (heat s h) rfl rfl rfl, rfl⟩
      | clear => exact ⟨zero _ rfl rfl, rfl⟩
  have hd : P (dropTurn s) := congr s _ h rfl rfl rfl
  have tail : ∀ {u : State}, u.schedule = s.schedule.tail → u.heatUntouched := fun e t ht =>
    hq t (List.mem_of_mem_tail (e ▸ ht))
  rcases step_cases s with ⟨hs, h'⟩ | ⟨rest, hs, h'⟩ | ⟨t, rest, hs, h'⟩ | ⟨rest, hs, h'⟩ <;> rw [h'] at hu
  · exact ⟨(core h hu).1, tail (by rw [(core h hu).2, hs]; rfl)⟩
  · cases hu
    exact ⟨zero _ rfl rfl, tail rfl⟩
  · have hw := hq (.host t) (by simp [hs])
    obtain ⟨u', hu', e⟩ := hostTransaction_effect t (dropTurn s)
    rw [hu'] at hu
    cases hu
    cases e with
    | storeCur a v i x ht hk hb => subst ht; simp [Turn.writesHeat, sinkOf_space.1 hk] at hw
    | storePrev a v i x ht hk hb => subst ht; simp [Turn.writesHeat, sinkOf_space.2 hk] at hw
    | _ => exact ⟨congr _ _ hd rfl rfl rfl, tail rfl⟩
  · exact ⟨(core hd hu).1, tail (core hd hu).2⟩

end Sys2Proof.Machine
end

