-- ==== Sys2Proof/Tests/Slice0.lean ====
section
/-! SUPPORT. Small tests of the model: expected values are those of spec/95_test_vectors.md or of the rule named; and for
every statement with hypotheses a witness that they can be met together. -/

namespace Sys2Proof.Tests

open Sys2Proof Sys2Proof.Machine

/-! ### Small builds and states -/

/-- A build of `w` by `h` cells with `B`, `K = 22`, `T = 15`, the 64-entry fixture and the fallback colour of program
P3. -/
def small (w h b : Nat) : Config where
  w := w
  h := h
  b := b
  k := 22#8
  t := 15#8
  p := .p64
  pal := palFixture .p64
  oorColor := 0xC8C0B8FF#32
  tickHz := 20

/-- A memory with the given first elements. -/
def mem {w : Nat} (l : List Nat) : Memory w := Memory.tabulate l.length fun i => BitVec.ofNat w (l.getD i 0)

/-- The reset state of a small build with its heat fields filled. -/
def filled (c : Config) (cur prev : List Nat) : State := { State.resetOf c with cur := mem cur, prev := mem prev }

/-- The state with `STEP` in flight. -/
def inFlight (s : State) : State := { s with engine := .running .step }

/-- The outcome is a next state that passes a check. -/
def passes (o : Host.Outcome State Fault Refusal) (p : State → Bool) : Bool :=
  match o with
  | .next t => p t
  | .fault _ | .refused _ => false

/-- The first `n` elements of a memory. -/
def cells {w : Nat} (m : Memory w) (n : Nat) : List Nat := (List.range n).map fun i => (m.read i).toNat

/-- The value and flags of the answer: data as a number, and `REG.STATUS`. -/
def answer (s : State) : Option Resp × Nat × Nat :=
  (s.rsp.map Response.resp, ((s.rsp.bind Response.data).map fun d => d.line.toNat).getD 0,
    (statusWord s.busy s.flags).toNat)

/-! ### Well-formedness: an ill-formed term for each check (R5, R130, R131) -/

theorem test_wf_small : (small 4 4 6).wf = true := by decide +kernel
theorem test_wf_instr : Instr.tick.wf = true := by decide
theorem test_wf_width_zero : (small 0 4 6).gridOk = false := by decide
theorem test_wf_width_over : (small 65536 1 6).gridOk = false := by decide
theorem test_wf_height_zero : (small 4 0 6).gridOk = false := by decide
theorem test_wf_height_over : (small 1 65536 6).gridOk = false := by decide
theorem test_wf_cells_over : (small 2048 2049 6).gridOk = false := by decide
theorem test_wf_cells_most : (small 2048 2048 6).gridOk = true := by decide
theorem test_wf_band_over : (small 4 4 256).bandOk = false := by decide
theorem test_wf_pal_length : ({ small 4 4 6 with p := .p256 } : Config).palOk = false := by decide +kernel
theorem test_wf_pal_alpha : colourOk 0x00000000#32 = false := by decide
theorem test_wf_pal_channel : colourOk 0x010000FF#32 = false ∧ colourOk 0x000200FF#32 = false ∧
    colourOk 0x000003FF#32 = false := by decide
theorem test_wf_pal_black : ({ small 4 4 6 with pal := (palFixture .p64).reverse } : Config).palOk = false := by
  decide +kernel
theorem test_wf_pal_entry : ({ small 4 4 6 with pal := (palFixture .p64).set 9 0#32 } : Config).palOk = false := by
  decide +kernel
theorem test_wf_oor : ({ small 4 4 6 with oorColor := 0xC8C0B800#32 } : Config).oorOk = false := by decide
theorem test_memory_not_rising : ¬ Memory.wf 4 ([(2, 1#8), (1, 1#8)] : Memory 8) := by decide
theorem test_memory_zero_listed : ¬ Memory.wf 4 ([(2, 0#8)] : Memory 8) := by decide
theorem test_memory_out_of_range : ¬ Memory.wf 4 ([(4, 1#8)] : Memory 8) := by decide

/-! ### Decoding: the words of R81 and V8, bit by bit -/

theorem test_decode_nop : decode 0b00000000000000000000000000000000#32 = .ok .nop := by decide
theorem test_decode_step : decode 0b00000000000000000000000000000001#32 = .ok .step := by decide
theorem test_decode_render : decode 0b00000000000000000000000000000010#32 = .ok .render := by decide
theorem test_decode_tick : decode 0b00000000000000000000000000000011#32 = .ok .tick := by decide
theorem test_decode_clear : decode 0b00000000000000000000000000000100#32 = .ok .clear := by decide
theorem test_decode_unassigned :
    [0x5#32, 0x7#32, 0x8#32, 0xF#32].map decode = List.replicate 4 (.error .unassignedOpcode) := by decide
theorem test_decode_reserved :
    [0x10#32, 0x11#32, 0x100#32, 0x80000001#32, 0xFFFFFFFF#32].map decode =
      List.replicate 5 (.error .reservedBitsSet) := by decide
theorem test_table_words :
    [0, 1, 2, 3, 4, 5].map (decodeTableWord 32) =
      [some .nop, some .step, some .render, some .tick, some .clear, none] := by decide

/-! ### `STEP`: V1 (the cell rule), V2, P2 -/

/-- V1: the stored value outside the band, and inside it with `K = 22`. -/
theorem test_cell_values :
    [0, 1, 4, 8, 9, 119, 120, 121, 128, 255, 256, 2040].map (fun v => ((cellOfSum (small 3 3 2) false (BitVec.ofNat 11 v)).toNat,
        (cellOfSum (small 3 3 2) true (BitVec.ofNat 11 v)).toNat)) =
      [(0, 255), (0, 22), (0, 255), (0, 22), (1, 21), (14, 8), (14, 8), (15, 15), (15, 15), (31, 31), (31, 31), (254, 254)] := by
  decide

/-- V1: `K = 5`, sum 80: `(5 - 9) mod 256`. -/
theorem test_darkness_wraps : cellOfSum { small 3 3 2 with k := 5#8 } true 80#11 = 252#8 := by decide

theorem test_step_no_interior :
    passes (exec .step (filled (small 2 5 6) [1, 2, 3, 4, 5, 6, 7, 8, 9, 10] [100, 101, 102, 103, 104, 105, 106, 107, 108, 109]))
      (fun t => cells t.cur 10 == [1, 2, 3, 4, 5, 6, 7, 8, 9, 10] &&
        cells t.prev 10 == [3, 4, 5, 6, 7, 8, 9, 10, 108, 109]) = true := by decide
theorem test_step_p2 :
    passes (exec .step (filled (small 6 6 2)
        [170, 0, 0, 0, 0, 0, 0, 0, 0, 0, 0, 0, 17, 0, 0, 0, 0, 0, 0, 0, 0, 0, 0, 34, 0, 0, 0, 0, 0, 0, 0, 0, 0, 0, 0, 85]
        [5, 10, 20, 30, 0, 0, 0, 40, 50, 60, 7, 0, 8, 0, 200, 255, 0, 12, 0, 9, 0, 100, 3, 0, 0, 0, 16, 0, 255, 0, 0, 0, 0,
          77, 0, 0]))
      (fun t => cells t.cur 36 == [170, 0, 0, 0, 0, 0, 0, 36, 76, 70, 44, 0, 17, 38, 64, 51, 54, 0, 0, 27, 71, 91, 77, 34, 0,
          19, 23, 56, 21, 0, 0, 0, 0, 0, 0, 85] &&
        cells t.prev 36 == [0, 36, 76, 70, 44, 0, 17, 38, 64, 51, 54, 0, 0, 27, 71, 91, 77, 34, 0, 19, 23, 56, 21, 0, 0, 0, 0,
          0, 0, 85, 0, 0, 0, 77, 0, 0]) = true := by decide +kernel

/-! ### `RENDER` (V6, P3), `TICK` (P1), `CLEAR`, `NOP` -/

theorem test_render_p3 :
    passes (exec .render { filled (small 4 3 6) [0, 63, 64, 200, 5, 17, 33, 255, 1, 2, 3, 4] [] with
        fb := mem (List.replicate 12 0xDEADBEEF) })
      (fun t => cells t.fb 12 == [0xDEADBEEF, 0xDEADBEEF, 0xDEADBEEF, 0xDEADBEEF, 0x000000FF, 0xFCFCFCFF, 0xC8C0B8FF,
        0xC8C0B8FF, 0x500000FF, 0xFC1000FF, 0xFCFC10FF, 0xC8C0B8FF]) = true := by decide +kernel
theorem test_render_p256 :
    passes (exec .render (filled { small 2 2 6 with p := .p256, pal := palFixture .p256 } [22, 255] []))
      (fun t => cells t.fb 4 == [0, 0, 0xFC6000FF, 0xFCFCFCFF]) = true := by decide +kernel
theorem test_tick_p1_tick1 :
    passes (exec .tick (State.resetOf { small 4 4 6 with oorColor := 0xFCFCFCFF#32 }))
      (fun t => cells t.cur 16 == [0, 0, 0, 0, 0, 255, 255, 0, 0, 255, 255, 0, 0, 0, 0, 0] &&
        cells t.fb 16 == [0, 0, 0, 0, 0xFF, 0xFF, 0xFF, 0xFF, 0xFF, 0xFCFCFCFF, 0xFCFCFCFF, 0xFF, 0xFF, 0xFCFCFCFF, 0xFCFCFCFF,
          0xFF]) = true := by decide +kernel
theorem test_clear_keeps_flags :
    passes (exec .clear { filled (small 2 2 1) [1, 2, 3, 4] [5, 6, 7, 8] with
        fb := mem [9], flags := { ill := true, ovr := false, acc := false, bad := false } })
      (fun t => cells t.cur 4 == [0, 0, 0, 0] && cells t.prev 4 == [0, 0, 0, 0] && cells t.fb 4 == [0, 0, 0, 0] &&
        (statusWord t.busy t.flags).toNat == 0x02) = true := by decide
theorem test_nop_keeps_cells :
    passes (exec .nop (filled (small 2 2 1) [1, 2, 3, 4] [])) (fun t => cells t.cur 4 == [1, 2, 3, 4]) = true := by decide
theorem test_fixture_palette :
    [0, 1, 15, 16, 22, 31, 32, 47, 48, 63, 64, 255].map (fun k => (fixtureColour k).toNat) =
      [0x000000FF, 0x100000FF, 0xF00000FF, 0xFC0000FF, 0xFC6000FF, 0xFCF000FF, 0xFCFC00FF, 0xFCFCF0FF, 0xFCFCFCFF, 0xFCFCFCFF,
        0xFCFCFCFF, 0xFCFCFCFF] := by decide

/-! ### Registers and transactions (V7, V8, V10, P5) -/

theorem test_registers_cfg0 :
    [Reg.id, .cmd, .status, .dim, .param, .oorColor].map (fun r => (readReg State.reset r).toNat) =
      [0x46495245, 0, 0, 0x00360280, 0x010F1606, 0xFCFCFCFF] := by decide
theorem test_registers_p64 :
    [Reg.dim, .param, .oorColor].map (fun r => (readReg (State.resetOf (small 4 3 6)) r).toNat) =
      [0x00030004, 0x000F1606, 0xC8C0B8FF] := by decide

/-- What a transaction answers from a state. -/
def asked (s : State) (t : Transaction) : Option (Option Resp × Nat × Nat) :=
  match hostTransaction t s with
  | .next u => some (answer u)
  | .fault _ | .refused _ => none

theorem test_bad_transactions :
    [Transaction.read 0x2#27 .four, .read 0x0#27 .one, .read 0x0#27 .two, .read 0x18#27 .four, .read 0x1000100#27 .four,
      .read 0x2000010#27 .one, .read 0x2000000#27 .four, .read 0x4000002#27 .four, .read 0x4000040#27 .four,
      .read 0x5000000#27 .four, .write 0x0#27 (.word 1#32), .write 0x8#27 (.word 0#32), .write 0x4#27 (.byte 1#8),
      .write 0x1000000#27 (.word 1#32), .write 0x4000000#27 (.half 1#16), .write 0x7FFFFFF#27 (.byte 0#8)].map
        (asked (State.resetOf (small 4 4 6))) = List.replicate 16 (some (some .err, 0, 0x10)) := by decide
theorem test_good_transactions :
    [Transaction.read 0x1000000#27 .four, .read 0x10000FC#27 .four, .read 0x200000F#27 .one, .write 0x300000F#27 (.byte 0x7F#8),
      .read 0x400003C#27 .four, .write 0x4#27 (.word 0#32)].map (asked (State.resetOf (small 4 4 6))) =
      [some (some .ok, 0x000000FF, 0), some (some .ok, 0xFCFCFCFF, 0), some (some .ok, 0, 0), some (some .ok, 0, 0),
        some (some .ok, 0, 0), some (some .ok, 0, 0)] := by decide
theorem test_command_words :
    [1, 2, 3, 4, 5, 0x11].map (fun w => asked (State.resetOf (small 4 4 6)) (.write 0x4#27 (.word (BitVec.ofNat 32 w)))) =
      [some (some .ok, 0, 1), some (some .ok, 0, 1), some (some .ok, 0, 1), some (some .ok, 0, 1), some (some .err, 0, 2),
        some (some .err, 0, 2)] := by decide
theorem test_busy_transactions :
    [Transaction.read 0x8#27 .four, .read 0x2000005#27 .one, .write 0x3000005#27 (.byte 9#8), .write 0x4#27 (.word 2#32),
      .read 0x2000004#27 .four, .write 0x4#27 (.word 0xFF#32), .write 0x4#27 (.word 0#32), .read 0x0#27 .four].map
        (asked (inFlight (State.resetOf (small 4 4 6)))) =
      [some (some .ok, 1, 1), some (some .err, 0, 9), some (some .err, 0, 9), some (some .err, 0, 5), some (some .err, 0, 0x11),
        some (some .err, 0, 5), some (some .err, 0, 5), some (some .ok, 0x46495245, 1)] := by decide

/-! ### The fetch: the first step after reset runs the word -/

theorem test_fetch_runs_each_row :
    [0, 1, 2, 3, 4].map (fun w => passes (step ((State.resetOf (small 4 4 6)).withFetchWord 32 w))
      fun t => t.busy == false && t.flags == Flags.clear && cells t.cur 6 == (if w == 1 || w == 3 then [0, 0, 0, 0, 0, 255]
        else [0, 0, 0, 0, 0, 0])) = List.replicate 5 true := by decide
theorem test_fetch_illegal_word :
    passes (step ((State.resetOf (small 4 4 6)).withFetchWord 32 5)) (fun t => t.flags.ill) = true := by decide

/-! ### Views from outside (R54, R201) -/

theorem test_lanes : [0, 1, 2, 3].map (lane 0x11223344#32) = [0x44#8, 0x33#8, 0x22#8, 0x11#8] := by decide
theorem test_pins :
    transactionOfPins { valid := true, write := true, addr := 0x2000000#27, size := 0#2, wdata := 0xABCDEF12#32 } =
      some (.write 0x2000000#27 (.byte 0x12#8)) := by decide
theorem test_pins_reset_and_no_request :
    turnOfPins { rst := true, req := { valid := false, write := false, addr := 0#27, size := 0#2, wdata := 0#32 } } = some .reset ∧
    turnOfPins { rst := false, req := { valid := false, write := true, addr := 4#27, size := 2#2, wdata := 1#32 } } = none := by
  decide

/-! ### Witnesses: the hypotheses of each statement met together -/

/-- An idle state, and the same with `STEP` in flight. -/
def idle4 : State := State.resetOf (small 4 4 6)
def busy4 : State := inFlight idle4

theorem not_legal_five : ¬ legalWord 0x5#32 := by
  rintro ⟨i, h⟩
  cases i <;> exact absurd h (by decide)

theorem small_inv : idle4.Inv :=
  ⟨test_wf_small, Memory.wf_nil _, Memory.wf_nil _, Memory.wf_nil _⟩

theorem reset_cold (c : Config) (l : List Turn) : ({ State.resetOf c with schedule := l } : State).ColdBorder :=
  ⟨fun _ _ _ _ _ => rfl, fun _ _ _ _ _ => rfl, fun _ _ _ _ => rfl⟩

theorem witness_IllegalWordIsNeverExecuted : ¬ legalWord 0x5#32 ∧ idle4.busy = false ∧ busy4.busy = true :=
  ⟨not_legal_five, rfl, rfl⟩

theorem witness_ResetFromEveryState :
    ({ busy4 with schedule := [.reset, .complete] } : State).schedule = .reset :: [.complete] := rfl

theorem witness_ConstantRegisters :
    idle4.cfg.wf = true ∧ State.reset.cfg = cfg0 ∧ (0x0000014#27 : Addr) ∈ [0x0000000#27, 0x000000C#27, 0x0000010#27, 0x0000014#27] ∧
    (Transaction.read 0x18#27 .four).space = 0 ∧ 0x18 ≤ (Transaction.read 0x18#27 .four).off :=
  ⟨test_wf_small, rfl, by decide, by decide, by decide⟩

/-- One witness for each clause of `isBad`, at the edge of its range, and the last good element beside two of them. -/
theorem witness_MalformedTransactionsAreBad :
    5 ≤ (Transaction.read 0x5000000#27 .four).space ∧
    (Transaction.read 0x2000000#27 .two).size.bytes ≠ elementBytes (Transaction.read 0x2000000#27 .two).space ∧
    ((Transaction.read 0x4000002#27 .four).size.bytes = 4 ∧ (Transaction.read 0x4000002#27 .four).off % 4 ≠ 0) ∧
    ((Transaction.read 0x18#27 .four).space = 0 ∧
      (Transaction.read 0x18#27 .four).off ∉ [0x00, 0x04, 0x08, 0x0C, 0x10, 0x14]) ∧
    (elementBytes 1 * elementCount idle4.cfg 1 ≤ (Transaction.read 0x1000100#27 .four).off) ∧
    ((Transaction.write 0x1000000#27 (.word 0#32)).isWrite = true ∧ (Transaction.write 0x1000000#27 (.word 0#32)).space = 1) ∧
    ¬ (Transaction.read 0x10000FC#27 .four).isBad idle4.cfg ∧ ¬ (Transaction.write 0x300000F#27 (.byte 1#8)).isBad idle4.cfg := by
  unfold Transaction.isBad
  decide

/-- One witness for each of the five clauses. -/
theorem witness_RefusalPriority :
    (Transaction.read 0x2000004#27 .four).isBad busy4.cfg ∧
    (¬ (Transaction.read 0x2000005#27 .one).isBad busy4.cfg ∧ 1 ≤ (Transaction.read 0x2000005#27 .one).space ∧ busy4.busy = true) ∧
    (¬ (Transaction.write 0x4#27 (.word 0#32)).isBad busy4.cfg ∧ (Transaction.write 0x4#27 (.word 0#32)).isCommandWrite) ∧
    (¬ (Transaction.write 0x4#27 (.word 5#32)).isBad idle4.cfg ∧ (Transaction.write 0x4#27 (.word 5#32)).isCommandWrite ∧
      idle4.busy = false ∧ ¬ legalWord (Transaction.write 0x4#27 (.word 5#32)).word) ∧
    (¬ (Transaction.write 0x4#27 (.word 1#32)).isBad idle4.cfg ∧ ¬ 1 ≤ (Transaction.write 0x4#27 (.word 1#32)).space ∧
      legalWord (Transaction.write 0x4#27 (.word 1#32)).word) := by
  refine ⟨?_, ⟨?_, by decide, rfl⟩, ⟨?_, by unfold Transaction.isCommandWrite; decide⟩,
    ⟨?_, by unfold Transaction.isCommandWrite; decide, rfl, not_legal_five⟩, ⟨?_, by decide, .step, rfl⟩⟩ <;>
  · unfold Transaction.isBad
    decide

theorem witness_RefusedTransactionChangesOnlyItsFlag :
    hostTransaction (.read 0x5000000#27 .four) busy4 = .next (refuse .bad (.read 0x5000000#27 .four) busy4) ∧
    (refuse .bad (.read 0x5000000#27 .four) busy4).answeredErr := ⟨rfl, _, rfl⟩

theorem witness_OnlyTheCommandRegisterHasSideEffects :
    (Transaction.write 0x200000F#27 (.byte 7#8)).isWrite = true ∧ ¬ (Transaction.write 0x200000F#27 (.byte 7#8)).isCommandWrite ∧
    sinkOf idle4.cfg 0x200000F#27 .one = some (.cur 15) ∧ sinkOf idle4.cfg 0x200000F#27 .one ≠ some (.cur 14) ∧
    sinkOf idle4.cfg 0x200000F#27 .one ≠ some (.prev 15) ∧ sinkOf idle4.cfg 0x200000F#27 .one ≠ some (.fb 15) := by
  unfold Transaction.isCommandWrite
  decide

/-- A set flag before a completion, a flag that a refusal sets, and a reset. -/
theorem witness_FlagsAreSticky :
    (step { busy4 with flags := Flags.clear.set .ill, schedule := [.complete] } =
        exec .step { busy4 with flags := Flags.clear.set .ill, schedule := [] } ∧ (Flags.clear.set .ill).get .ill = true) ∧
    (step { idle4 with schedule := [.host (.read 0x5000000#27 .four)] } = .next (refuse .bad (.read 0x5000000#27 .four) idle4) ∧
      idle4.flags.get .bad = false ∧ (refuse .bad (.read 0x5000000#27 .four) idle4).flags.get .bad = true) ∧
    ({ busy4 with schedule := [.reset] } : State).schedule = .reset :: [] := ⟨⟨rfl, rfl⟩, ⟨rfl, rfl, rfl⟩, rfl⟩

/-- The last element of the grid and of the palette. -/
theorem witness_HostWriteStoresExactly : idle4.Inv ∧ idle4.busy = false ∧ 15 < idle4.cfg.n := ⟨small_inv, rfl, by decide⟩
theorem witness_HostReadsTheLatestWrite :
    idle4.Inv ∧ idle4.busy = false ∧ 15 < idle4.cfg.n ∧ 0 < idle4.cfg.n ∧ 63 < idle4.cfg.p.entries :=
  ⟨small_inv, rfl, by decide, by decide, by decide⟩

theorem witness_BusyProtectsTheMemories : busy4.busy = true ∧ 1 ≤ (Transaction.read 0x1000000#27 .four).space := ⟨rfl, by decide⟩

theorem witness_PaletteIsImmutable :
    step busy4 = exec .step busy4 ∧ (Transaction.write 0x1000004#27 (.word 0#32)).space = 1 ∧
    (Transaction.write 0x1000004#27 (.word 0#32)).isWrite = true := ⟨rfl, by decide, rfl⟩

theorem witness_NopDoesNothing :
    ({ idle4 with schedule := [cmd .nop, .complete] } : State).schedule = cmd .nop :: [.complete] ∧ idle4.busy = false ∧
    ({ busy4 with schedule := [cmd .nop] } : State).schedule = cmd .nop :: [] ∧ busy4.busy = true := ⟨rfl, rfl, rfl, rfl⟩

/-- The first and the last interior cell, two corners of the border, the last row. -/
theorem witness_StepFollowsTheHeatRule :
    interior idle4.cfg 1 1 = true ∧ interior idle4.cfg 2 2 = true ∧ border idle4.cfg 0 0 = true ∧ border idle4.cfg 3 3 = true ∧
    border idle4.cfg 1 3 = true ∧ 2 + 1 < idle4.cfg.h ∧ 3 + 1 = idle4.cfg.h ∧ 3 < idle4.cfg.w := by decide

/-- One sum for each row of the table, at the edges `a = T` and `a = T + 1` where it has them (`T = 15`). -/
theorem witness_CellTable :
    ((1#11).toNat % 4 ≠ 0) ∧ ((8#11).toNat % 4 = 0 ∧ 1 ≤ (8#11).toNat / 8) ∧ ((4#11).toNat % 4 = 0 ∧ (4#11).toNat / 8 = 0) ∧
    ((121#11).toNat % 4 ≠ 0 ∧ idle4.cfg.t.toNat ≤ (121#11).toNat / 8) ∧
    ((119#11).toNat % 4 ≠ 0 ∧ (119#11).toNat / 8 < idle4.cfg.t.toNat) ∧
    ((128#11).toNat % 4 = 0 ∧ idle4.cfg.t.toNat + 1 ≤ (128#11).toNat / 8) ∧
    ((120#11).toNat % 4 = 0 ∧ 1 ≤ (120#11).toNat / 8 ∧ (120#11).toNat / 8 ≤ idle4.cfg.t.toNat) := by decide

/-- Outside the band, and inside it at the sums 0 and 4. -/
theorem witness_SparksArePossibleOnlyInTheBand :
    interior (small 3 3 1) 1 1 = true ∧ inBand (small 3 3 1) 1 = false ∧ inBand (small 3 3 2) 1 = true ∧
    neighbourSum (small 3 3 2) (mem [0, 0, 0, 0, 9]) 1 1 = 0 ∧ neighbourSum (small 3 3 2) (mem [1, 0, 0, 3, 9]) 1 1 = 4 := by
  decide

/-- Two states that differ in the interior cell of `CUR` only. -/
theorem witness_StepIgnoresTheInteriorOfCur :
    let s := filled (small 3 3 2) [0, 0, 0, 0, 5] [1]
    let s' := filled (small 3 3 2) [0, 0, 0, 0, 6] [1]
    s'.cfg = s.cfg ∧ s.cur ≠ s'.cur ∧ (∀ i, i < s.cfg.n → s'.prev.read i = s.prev.read i) ∧
    ∀ r k, r < s.cfg.h → k < s.cfg.w → border s.cfg r k = true →
      s'.cur.read (idx s.cfg r k) = s.cur.read (idx s.cfg r k) := by
  refine ⟨rfl, by decide, fun _ _ => rfl, fun r k hr hk => ?_⟩
  change r < 3 at hr
  change k < 3 at hk
  interval_cases r <;> interval_cases k <;> decide

/-- Every phase visited backwards. -/
theorem witness_VisitingOrderDoesNotMatter :
    idle4.Inv ∧ (interiorCells idle4.cfg).reverse.Perm (interiorCells idle4.cfg) ∧
    (scrollCells idle4.cfg).reverse.Perm (scrollCells idle4.cfg) ∧ (renderCells idle4.cfg).reverse.Perm (renderCells idle4.cfg) ∧
    (List.range idle4.cfg.n).reverse.Perm (List.range idle4.cfg.n) :=
  ⟨small_inv, List.reverse_perm _, List.reverse_perm _, List.reverse_perm _, List.reverse_perm _⟩

/-- A warm cell at row 4 of `CUR`, scrolled to row 3 of `PREV`; the rows above row 4 are cold. -/
theorem witness_HeatRisesAtMostTwoRows :
    let s := filled (small 3 6 0) [0, 0, 0, 0, 0, 0, 0, 0, 0, 0, 0, 0, 0, 9] [0, 0, 0, 0, 0, 0, 0, 0, 0, 0, 9]
    s.ColdBorder ∧ (∀ r k, r < 4 → r < s.cfg.h → k < s.cfg.w → s.cur.read (idx s.cfg r k) = 0#8) ∧
    1 + 2 < 4 ∧ inBand s.cfg 1 = false := by
  refine ⟨⟨fun r k hr hk => ?_, fun r k hr hk => ?_, fun r k hr hk => ?_⟩, fun r k hr _ hk => ?_, by decide, by decide⟩
  · change r < 6 at hr
    change k < 3 at hk
    interval_cases r <;> interval_cases k <;> decide
  · change r < 6 at hr
    change k < 3 at hk
    interval_cases r <;> interval_cases k <;> decide
  · change r + 1 < 6 at hr
    change k < 3 at hk
    have : r < 5 := by omega
    interval_cases r <;> interval_cases k <;> decide
  · change k < 3 at hk
    interval_cases r <;> interval_cases k <;> decide

theorem witness_DegenerateSizes :
    (small 2 5 6).w < 3 ∧ (small 5 2 6).h < 3 ∧ (small 3 1 6).h = 1 ∧ (small 4 4 0).b = 0 ∧ (small 4 4 4).h ≤ (small 4 4 4).b ∧
    ∀ i, i < (small 4 4 0).n → (State.resetOf (small 4 4 0)).cur.read i = 0#8 ∧ (State.resetOf (small 4 4 0)).prev.read i = 0#8 :=
  ⟨by decide, by decide, rfl, rfl, by decide, fun _ _ => ⟨rfl, rfl⟩⟩

theorem witness_StepKeepsMirrorSymmetry :
    let s := filled (small 3 3 2) [1, 2, 1, 3, 4, 3] [5, 0, 5, 7, 9, 7]
    ∀ r k, r < s.cfg.h → k < s.cfg.w →
      s.cur.read (idx s.cfg r (s.cfg.w - 1 - k)) = s.cur.read (idx s.cfg r k) ∧
      s.prev.read (idx s.cfg r (s.cfg.w - 1 - k)) = s.prev.read (idx s.cfg r k) := by
  intro s r k hr hk
  change r < 3 at hr
  change k < 3 at hk
  interval_cases r <;> interval_cases k <;> decide

theorem witness_RenderShowsTheCellAbove :
    2 + 1 < idle4.cfg.h ∧ 3 < idle4.cfg.w ∧ 0 < idle4.cfg.h ∧ (64#8 : Byte).toNat = idle4.cfg.p.entries := by decide

/-- A value in range, the first out of range, a 256-entry build, and the default `OOR_COLOR`. -/
theorem witness_ColourOfAHeatValue :
    (63#8 : Byte).toNat < (small 4 4 6).p.entries ∧ (small 4 4 6).p.entries ≤ (64#8 : Byte).toNat ∧ cfg0.p = .p256 ∧
    ({ small 4 4 6 with oorColor := 0xFCFCFCFF#32 } : Config).oorColor = palAt (small 4 4 6) ((small 4 4 6).p.entries - 1) := by
  decide

/-- Two states that differ in the bottom row of `CUR` only. -/
theorem witness_RenderIsDeterministicAndRepeatable :
    let s := filled (small 2 2 0) [1, 2, 3, 4] []
    let s' := filled (small 2 2 0) [1, 2, 7, 8] []
    s'.cfg = s.cfg ∧ s'.cur ≠ s.cur ∧
    ∀ r k, r + 1 < s.cfg.h → k < s.cfg.w → s'.cur.read (idx s.cfg r k) = s.cur.read (idx s.cfg r k) := by
  refine ⟨rfl, by decide, fun r k hr hk => ?_⟩
  change r + 1 < 2 at hr
  change k < 2 at hk
  have : r = 0 := by omega
  subst this
  interval_cases k <;> decide

theorem witness_RenderedPixelsHaveTheWordFormat : idle4.cfg.wf = true ∧ idle4.cfg.w ≤ 4 ∧ 15 < idle4.cfg.n :=
  ⟨test_wf_small, by decide, by decide⟩

theorem witness_FixturePalette : 15 < 16 ∧ 48 ≤ 48 ∧ 255 < 256 := by decide

theorem witness_TickIsStepThenRender :
    idle4.busy = false ∧ ({ busy4 with schedule := [cmd .tick] } : State).schedule = cmd .tick :: [] ∧
    ({ busy4 with schedule := [cmd .tick] } : State).busy = true := ⟨rfl, rfl, rfl⟩

theorem witness_ClearRestoresTheStartUpContents :
    Instr.tick ≠ .clear ∧ 3 + 1 = idle4.cfg.h ∧ border idle4.cfg 3 0 = true ∧ 0 < idle4.cfg.h ∧ 3 < idle4.cfg.w ∧
    ({ busy4 with schedule := [cmd .clear] } : State).schedule = cmd .clear :: [] ∧
    ({ busy4 with schedule := [cmd .clear] } : State).busy = true := by decide

/-- One word for each of the four cases. -/
theorem witness_AcceptanceOfACommand :
    busy4.busy = true ∧ idle4.busy = false ∧ ¬ legalWord 0x5#32 ∧ (0x0#32 : Word) = encode .nop ∧
    (0x4#32 : Word) = encode CoreOp.clear.instr := ⟨rfl, rfl, not_legal_five, rfl, rfl⟩

theorem witness_CompletionAppliesTheCommandInFlight : busy4.engine = .running .step ∧ idle4.busy = false := ⟨rfl, rfl⟩

/-- A command write and a memory read between the acceptance and the completion. -/
theorem witness_TrafficDoesNotDisturbTheCommand :
    let ts : List Transaction := [.write 0x4#27 (.word 2#32), .read 0x2000000#27 .one]
    let s : State := { busy4 with schedule := ts.map Turn.host ++ [.complete] }
    s.engine = .running .step ∧ s.schedule = ts.map Turn.host ++ .complete :: [] := ⟨rfl, rfl⟩

theorem witness_RunOfACommand :
    ({ idle4 with schedule := runCmd .tick 2 ++ [.reset] } : State).busy = false ∧
    ({ idle4 with schedule := runCmd .tick 2 ++ [.reset] } : State).schedule = runCmd .tick 2 ++ [.reset] := ⟨rfl, rfl⟩

theorem witness_StepRunsTheDecodedCommand :
    decode 0x3#32 = .ok .tick ∧ decode 0x0#32 = .ok .nop ∧ decode 0x1#32 = .ok CoreOp.step.instr ∧ idle4.busy = false ∧
    ({ idle4 with schedule := [commandTurn 0x1#32, .complete] } : State).schedule = commandTurn 0x1#32 :: .complete :: [] :=
  ⟨by decide, by decide, by decide, rfl, rfl⟩

/-- States that differ in the engine, the flags and the moves to come. -/
theorem witness_EffectDependsOnTheMemoriesOnly :
    ({ busy4 with flags := Flags.clear.set .ovr, schedule := [.complete] } : State).cfg = idle4.cfg ∧
    SameMemories idle4 { busy4 with flags := Flags.clear.set .ovr, schedule := [.complete] } := ⟨rfl, rfl, rfl, rfl⟩

theorem witness_IdleBlockWaits : idle4.runOver := ⟨rfl, rfl⟩

theorem witness_CanonicalFormAtReset : (small 4 4 6).wf = true := test_wf_small

theorem witness_CanonicalFormKeptByEveryStep :
    ({ busy4 with schedule := [.complete] } : State).Inv ∧
    step { busy4 with schedule := [.complete] } = .next (finish (heatStep busy4)) :=
  ⟨⟨test_wf_small, Memory.wf_nil _, Memory.wf_nil _, Memory.wf_nil _⟩, rfl⟩

theorem witness_ColdBorderKeptByEveryStep :
    ({ idle4 with schedule := [cmd .step, .complete] } : State).ColdBorder ∧
    ({ idle4 with schedule := [cmd .step, .complete] } : State).heatUntouched ∧
    step { idle4 with schedule := [cmd .step, .complete] } =
      .next (accept .step (respondOk { idle4 with schedule := [.complete] })) := by
  refine ⟨reset_cold _ _, fun t ht => ?_, rfl⟩
  simp only [List.mem_cons, List.not_mem_nil, or_false] at ht
  rcases ht with rfl | rfl <;> decide

theorem witness_ReachableStatesKeepTheInvariants :
    (small 4 4 6).wf = true ∧
    Reaches { State.resetOf (small 4 4 6) with schedule := [cmd .step] } (accept .step (respondOk (State.resetOf (small 4 4 6)))) ∧
    ∀ t ∈ [cmd .step], t.writesHeat = false :=
  ⟨test_wf_small, .more (.here _) rfl, by decide⟩

/-- Reset, no request, a request for a 1-byte write, and a transaction answered with data. -/
theorem witness_PinsCarryEveryMove :
    let q : RequestPins := { valid := true, write := true, addr := 0x200000F#27, size := 0#2, wdata := 0xABCDEF12#32 }
    (turnOfPins { rst := true, req := q } = some .reset ∧ turnOfPins { rst := false, req := { q with valid := false } } = none) ∧
    turnOfPins { rst := false, req := q } = some (.host (.write 0x200000F#27 (.byte 0x12#8))) ∧
    hostTransaction (.read 0x0#27 .four) idle4 = .next (respondData (.word 0x46495245#32) idle4) ∧
    (respondData (.word 0x46495245#32) idle4).rsp = some { resp := .ok, data := some (.word 0x46495245#32) } :=
  ⟨⟨rfl, rfl⟩, rfl, rfl, rfl⟩

/-- A mirror-symmetric field that is not zero, with a `STEP` in flight that completes. -/
theorem witness_MirrorSymmetryKeptByEveryStep :
    let s : State := { filled (small 3 3 2) [1, 2, 1, 3, 4, 3] [5, 0, 5, 7, 9, 7] with
      engine := .running .step, schedule := [.complete] }
    s.Mirrored ∧ s.heatUntouched ∧ step s = .next (finish (heatStep (dropTurn s))) :=
  ⟨⟨fun r k hr hk => (witness_StepKeepsMirrorSymmetry r k hr hk).1,
    fun r k hr hk => (witness_StepKeepsMirrorSymmetry r k hr hk).2⟩,
    by intro t ht; simp only [List.mem_singleton] at ht; subst ht; rfl, rfl⟩

end Sys2Proof.Tests
end

section
/-! SUPPORT. The invariant `State.Inv` at reset and under every step, the default build, and what a command's effect
depends on (spec/00_scope.md R5, R6, R8; spec/20_memory.md R53, R57). -/

namespace Sys2Proof.Machine

/-! ### The invariant under the effects of commands and transactions -/

/-- The invariant speaks of the build and the memories only. -/
theorem State.Inv.congr {s u : State} (h : s.Inv) (hcfg : u.cfg = s.cfg) (hmem : SameMemories s u) : u.Inv := by
  obtain ⟨hcur, hprev, hfb⟩ := hmem
  constructor
  · rw [hcfg]; exact h.build
  · rw [hcfg, hcur]; exact h.cur
  · rw [hcfg, hprev]; exact h.prev
  · rw [hcfg, hfb]; exact h.fb

/-- Empty memories are in canonical form in every admitted build. -/
theorem inv_of_empty {s : State} (hb : s.cfg.wf = true) (hcur : s.cur = []) (hprev : s.prev = []) (hfb : s.fb = []) :
    s.Inv := by
  constructor
  · exact hb
  · rw [hcur]; exact Memory.wf_nil _
  · rw [hprev]; exact Memory.wf_nil _
  · rw [hfb]; exact Memory.wf_nil _

theorem resetOf_inv {c : Config} (h : c.wf = true) : (State.resetOf c).Inv := inv_of_empty h rfl rfl rfl

theorem heatStep_inv {s : State} (h : s.Inv) : (heatStep s).Inv :=
  ⟨h.build, wf_computePhase _ _ _, wf_scrollPhase _ _ _, h.fb⟩

theorem renderFrame_inv {s : State} (h : s.Inv) : (renderFrame s).Inv :=
  ⟨h.build, h.cur, h.prev, wf_renderPhase _ _ _⟩

theorem CoreOp.effect_inv (op : CoreOp) {s : State} (h : s.Inv) : (op.effect s).Inv := by
  cases op with
  | step => exact heatStep_inv h
  | render => exact renderFrame_inv h
  | tick => exact renderFrame_inv (heatStep_inv h)
  | clear => exact inv_of_empty h.build rfl rfl rfl

/-- The only stores a transaction makes are to the element its address names, which is in range (R53). -/
theorem HostEffect.inv {s u : State} {t : Transaction} (e : HostEffect s t u) (h : s.Inv) : u.Inv := by
  cases e with
  | storeCur a v i x _ hk _ => exact ⟨h.build, Memory.wf_write h.cur (sinkOf_lt (.inl hk)) x, h.prev, h.fb⟩
  | storePrev a v i x _ hk _ => exact ⟨h.build, h.cur, Memory.wf_write h.prev (sinkOf_lt (.inr (.inl hk))) x, h.fb⟩
  | storeFb a v i x _ hk _ => exact ⟨h.build, h.cur, h.prev, Memory.wf_write h.fb (sinkOf_lt (.inr (.inr hk))) x⟩
  | refused | readOk | nop | started => exact h.congr rfl ⟨rfl, rfl, rfl⟩

theorem hostTransaction_inv {s u : State} {t : Transaction} (h : s.Inv) (hu : hostTransaction t s = .next u) :
    u.Inv := by
  obtain ⟨u', hu', e⟩ := hostTransaction_effect t s
  rw [hu'] at hu
  cases hu
  exact e.inv h

theorem coreTurn_inv {s u : State} (h : s.Inv) (hu : coreTurn s = .next u) : u.Inv := by
  rcases coreTurn_cases s with ⟨-, h'⟩ | ⟨op, -, h'⟩ <;> rw [h'] at hu <;> cases hu
  · exact h
  · exact (op.effect_inv h).congr rfl ⟨rfl, rfl, rfl⟩

theorem dropTurn_inv {s : State} (h : s.Inv) : (dropTurn s).Inv := h.congr rfl ⟨rfl, rfl, rfl⟩

theorem step_inv {s u : State} (h : s.Inv) (hu : step s = .next u) : u.Inv := by
  rcases step_cases s with ⟨-, h'⟩ | ⟨_, -, h'⟩ | ⟨t, _, -, h'⟩ | ⟨_, -, h'⟩ <;> rw [h'] at hu
  · exact coreTurn_inv h hu
  · cases hu
    exact inv_of_empty h.build rfl rfl rfl
  · exact hostTransaction_inv (dropTurn_inv h) hu
  · exact coreTurn_inv (dropTurn_inv h) hu

/-- Settles O45: a transaction stores in range only, a command tabulates or empties the memories it writes, and a reset
empties them. -/
theorem canonicalFormKeptByEveryStep : Obligations.CanonicalFormKeptByEveryStep := fun _ _ => step_inv

/-! ### What the effect of a command depends on (R8) -/

section

variable {s s' : State}

theorem heatStep_sameMemories (hcfg : s'.cfg = s.cfg) (hmem : SameMemories s s') :
    SameMemories (heatStep s) (heatStep s') := by
  obtain ⟨hcur, hprev, hfb⟩ := hmem
  constructor
  · simp only [heatStep_cur, hcfg, hcur, hprev]
  · simp only [heatStep_prev, hcfg, hcur, hprev]
  · exact hfb

theorem renderFrame_sameMemories (hcfg : s'.cfg = s.cfg) (hmem : SameMemories s s') :
    SameMemories (renderFrame s) (renderFrame s') := by
  obtain ⟨hcur, hprev, hfb⟩ := hmem
  constructor
  · exact hcur
  · exact hprev
  · simp only [renderFrame_fb, hcfg, hcur, hfb]

/-- The effect of a command reads the build and the memories only (R8). -/
theorem CoreOp.effect_sameMemories (op : CoreOp) (hcfg : s'.cfg = s.cfg) (hmem : SameMemories s s') :
    SameMemories (op.effect s) (op.effect s') := by
  cases op with
  | step => exact heatStep_sameMemories hcfg hmem
  | render => exact renderFrame_sameMemories hcfg hmem
  | tick => exact renderFrame_sameMemories hcfg (heatStep_sameMemories hcfg hmem)
  | clear => exact ⟨rfl, rfl, rfl⟩

end

/-- Every command but `NOP` is the command of a `CoreOp` (R154). -/
theorem instr_eq_nop_or_coreOp (i : Instr) : i = .nop ∨ ∃ op : CoreOp, i = op.instr := by
  cases i with
  | nop => exact .inl rfl
  | step => exact .inr ⟨.step, rfl⟩
  | render => exact .inr ⟨.render, rfl⟩
  | tick => exact .inr ⟨.tick, rfl⟩
  | clear => exact .inr ⟨.clear, rfl⟩

/-- `NOP` leaves the state as it is (R150). -/
theorem exec_nop (s : State) : exec .nop s = .next s := rfl

/-- Settles O41: `NOP` keeps the memories, and the other effects read the build and the memories only. -/
theorem effectDependsOnTheMemoriesOnly : Obligations.EffectDependsOnTheMemoriesOnly := by
  intro i s s' hcfg hmem
  rcases instr_eq_nop_or_coreOp i with rfl | ⟨op, rfl⟩
  · exact ⟨s, s', exec_nop s, exec_nop s', hmem⟩
  · obtain ⟨hcur, hprev, hfb⟩ := op.effect_sameMemories hcfg hmem
    exact ⟨_, _, exec_instr op s, exec_instr op s', hcur, hprev, hfb⟩

/-! ### The fixture palette and the default build are admitted (R5, R6, R134) -/

/-- A channel four times a base value is a multiple of 4, also modulo 256. -/
theorem channelOk_four_mul (x : Nat) : channelOk (BitVec.ofNat 8 (4 * x)) = true := by
  simp only [channelOk, BitVec.toNat_ofNat, beq_iff_eq]
  omega

/-! The four channels of an assembled colour word are those it is assembled from (R130). -/

theorem redOf_append (r g b a : Byte) : redOf (r ++ g ++ b ++ a) = r := by
  rw [redOf, BitVec.extractLsb'_append_eq_of_le (by omega), BitVec.extractLsb'_append_eq_of_le (by omega),
    BitVec.extractLsb'_append_eq_left]

theorem greenOf_append (r g b a : Byte) : greenOf (r ++ g ++ b ++ a) = g := by
  rw [greenOf, BitVec.extractLsb'_append_eq_of_le (by omega), BitVec.extractLsb'_append_eq_of_le (by omega),
    BitVec.extractLsb'_append_eq_right]

theorem blueOf_append (r g b a : Byte) : blueOf (r ++ g ++ b ++ a) = b := by
  rw [blueOf, BitVec.extractLsb'_append_eq_of_le (by omega), BitVec.extractLsb'_append_eq_right]

theorem alphaOf_append (r g b a : Byte) : alphaOf (r ++ g ++ b ++ a) = a := by
  rw [alphaOf, BitVec.extractLsb'_append_eq_right]

theorem colourOk_colourOfBase (r g b : Nat) : colourOk (colourOfBase r g b) = true := by
  simp only [colourOk, colourOfBase, redOf_append, greenOf_append, blueOf_append, alphaOf_append, channelOk_four_mul,
    beq_self_eq_true, Bool.and_self]

theorem colourOk_fixtureColour (k : Nat) : colourOk (fixtureColour k) = true := by
  simp only [fixtureColour]
  split_ifs <;> exact colourOk_colourOfBase _ _ _

/-- The fixture of either size is an admitted palette: `P` colours, the first black (R131, R134). -/
theorem palOk_of_palFixture {c : Config} (h : c.pal = palFixture c.p) : c.palOk = true := by
  have hlen : (palFixture c.p).length = c.p.entries := by simp [palFixture]
  have hall : (palFixture c.p).all colourOk = true := by simp [palFixture, colourOk_fixtureColour]
  have hblack : (palFixture c.p).head? = some 0x000000FF#32 := by cases c.p <;> rfl
  simp [Config.palOk, h, hlen, hall, hblack]

theorem cfg0_wf : cfg0.wf = true := by
  have hgrid : cfg0.gridOk = true := by decide
  have hband : cfg0.bandOk = true := by decide
  have hpal : cfg0.palOk = true := palOk_of_palFixture rfl
  have hoor : cfg0.oorOk = true := colourOk_fixtureColour 255
  simp [Config.wf, hgrid, hband, hpal, hoor]

/-- Settles O44: the memories are empty at reset, and `CFG0` is an admitted build. -/
theorem canonicalFormAtReset : Obligations.CanonicalFormAtReset :=
  ⟨fun _ => resetOf_inv, rfl, resetOf_inv cfg0_wf⟩

end Sys2Proof.Machine
end

section
/-! SUPPORT. The state, its registers and its invariants (spec/10_state.md): what reset leaves, the flags, the register
accesses, the acceptance of a command, and the border invariants of R36. -/

namespace Sys2Proof.Machine

/-! ### What every step leaves as it is -/

@[simp] theorem CoreOp.effect_cfg (op : CoreOp) (s : State) : (op.effect s).cfg = s.cfg := by cases op <;> rfl

@[simp] theorem CoreOp.effect_flags (op : CoreOp) (s : State) : (op.effect s).flags = s.flags := by cases op <;> rfl

theorem coreTurn_keeps {s u : State} (hu : coreTurn s = .next u) : u.cfg = s.cfg ∧ u.flags = s.flags := by
  rcases coreTurn_cases s with ⟨-, h'⟩ | ⟨op, -, h'⟩ <;> rw [h'] at hu <;> cases hu
  · exact ⟨rfl, rfl⟩
  · exact ⟨op.effect_cfg s, op.effect_flags s⟩

theorem HostEffect.cfg {s u : State} {t : Transaction} (e : HostEffect s t u) : u.cfg = s.cfg := by
  cases e <;> rfl

/-- A transaction keeps the flags unless it is refused. -/
theorem HostEffect.flags_or_refused {s u : State} {t : Transaction} (e : HostEffect s t u) :
    u.flags = s.flags ∨ ∃ f, u = refuse f t s := by
  cases e with
  | refused f => exact .inr ⟨f, rfl⟩
  | _ => exact .inl rfl

theorem step_cfg {s u : State} (hu : step s = .next u) : u.cfg = s.cfg := by
  rcases step_cases s with ⟨-, h'⟩ | ⟨_, -, h'⟩ | ⟨t, _, -, h'⟩ | ⟨_, -, h'⟩ <;> rw [h'] at hu
  · exact (coreTurn_keeps hu).1
  · cases hu
    rfl
  · obtain ⟨u', hu', e⟩ := hostTransaction_effect t (dropTurn s)
    cases hu'.symm.trans hu
    exact e.cfg
  · exact (coreTurn_keeps hu).1

/-- A step keeps the flags, or it is a `RESET`, or it is a refused transaction. -/
theorem step_flags_cases {s u : State} (hu : step s = .next u) :
    u.flags = s.flags ∨ (∃ rest, s.schedule = .reset :: rest) ∨
    (∃ t rest f, s.schedule = .host t :: rest ∧ u = refuse f t (dropTurn s)) := by
  rcases step_cases s with ⟨-, h'⟩ | ⟨rest, hs, -⟩ | ⟨t, rest, hs, h'⟩ | ⟨_, -, h'⟩
  · exact .inl (coreTurn_keeps (h'.symm.trans hu)).2
  · exact .inr (.inl ⟨rest, hs⟩)
  · obtain ⟨u', hu', e⟩ := hostTransaction_effect t (dropTurn s)
    cases hu'.symm.trans (h'.symm.trans hu)
    rcases e.flags_or_refused with hf | ⟨f, hf⟩
    · exact .inl hf
    · exact .inr (.inr ⟨t, rest, f, hs, hf⟩)
  · exact .inl (coreTurn_keeps (h'.symm.trans hu)).2

/-- The step of a `RESET` at the head of the schedule. -/
theorem step_reset {s : State} {rest : List Turn} (hs : s.schedule = .reset :: rest) :
    step s = .next (assertReset (dropTurn s)) := by
  unfold step nextMove
  rw [hs]
  rfl

/-! ### The flags (R26) -/

theorem refuse_answeredErr (f : StickyFlag) (t : Transaction) (s : State) : (refuse f t s).answeredErr := by
  cases t <;> exact ⟨_, rfl⟩

/-- Settles O12: only a refusal changes a flag, by setting it; a `RESET` clears all four. -/
theorem flagsAreSticky : Obligations.FlagsAreSticky := by
  refine ⟨fun s u hu hreset f => ?_, fun s rest hs => ⟨_, step_reset hs, Flags.get_clear⟩⟩
  rcases step_flags_cases hu with hfl | ⟨rest, hs⟩ | ⟨t, rest, g, hs, rfl⟩
  · rw [hfl]
    exact ⟨id, fun h0 h1 => absurd h1 (by simp [h0])⟩
  · exact absurd hs (hreset rest)
  · refine ⟨fun h => ?_, fun _ _ => ⟨refuse_answeredErr g t _, t, rest, hs⟩⟩
    simp [h]

/-! ### Malformed transactions (R52, R53, R55, R172) -/

/-- A malformed transaction is refused with `BAD`, busy or idle. -/
theorem hostTransaction_of_malformed {s : State} {t : Transaction} (h : malformed s.cfg t = true) :
    hostTransaction t s = .next (refuse .bad t s) := by
  cases t with
  | read a n =>
    have hp : placeOf s.cfg a n = none := Option.isNone_iff_eq_none.1 h
    simp [hostTransaction, memRead, hp]
  | write a v =>
    have hk : sinkOf s.cfg a v.size = none := Option.isNone_iff_eq_none.1 h
    simp [hostTransaction, memWrite, hk]

/-- An access that names no place is malformed, a read or a write. -/
theorem malformed_of_placeOf_eq_none {c : Config} {t : Transaction} (h : placeOf c t.addr t.size = none) :
    malformed c t = true := by
  cases t with
  | read a n => exact Option.isNone_iff_eq_none.2 h
  | write a v =>
    have hp : placeOf c a v.size = none := h
    simp [malformed, sinkOf, hp]

theorem spaceOf_eq_reg {a : Addr} (h : a.toNat / 2 ^ 24 = 0) : spaceOf a = some .reg := by
  rw [spaceOf_eq, if_pos h]

theorem spaceOf_eq_pal {a : Addr} (h : a.toNat / 2 ^ 24 = 1) : spaceOf a = some .pal := by
  rw [spaceOf_eq, h]
  rfl

/-- No write names an element of `PAL` (R23). -/
theorem sinkOf_pal {c : Config} {a : Addr} (n : Size) (h : spaceOf a = some .pal) : sinkOf c a n = none := by
  unfold sinkOf placeOf
  rw [h]
  cases wordElement (offOf a) c.p.entries n <;> rfl

/-- Settles O16: no step changes the build, and a write to `PAL` has no sink. -/
theorem paletteIsImmutable : Obligations.PaletteIsImmutable := by
  refine ⟨fun s u => step_cfg, fun s t hspace hwrite => ?_⟩
  cases t with
  | read a n => cases hwrite
  | write a v =>
    apply hostTransaction_of_malformed
    have hk : sinkOf s.cfg a v.size = none := sinkOf_pal v.size (spaceOf_eq_pal hspace)
    simp [malformed, hk]

/-! ### Accesses to the registers (R27 to R32) -/

/-- The address of a register names it, for a transfer of a word. -/
theorem placeOf_regAddr (c : Config) (r : Reg) (n : Size) :
    placeOf c r.addr n = if n = .four then some (.reg r) else none := by
  cases r <;> rfl

theorem Place.sink_reg : ∀ {r : Reg}, r ≠ .cmd → (Place.reg r).sink = none
  | .cmd, h => absurd rfl h
  | .id, _ | .status, _ | .dim, _ | .param, _ | .oorColor, _ => rfl

/-- A read of a register returns its value, busy or idle. -/
theorem hostTransaction_read_reg (r : Reg) (s : State) :
    hostTransaction (.read r.addr .four) s = .next (respondData (.word (readReg s r)) s) := by
  simp [hostTransaction, memRead, placeOf_regAddr, Place.inMemory, readPlace]

/-- Every register but `REG.CMD` is read-only (R55). -/
theorem hostTransaction_write_reg {r : Reg} (h : r ≠ .cmd) (v : Datum) (s : State) :
    hostTransaction (.write r.addr v) s = .next (refuse .bad (.write r.addr v) s) := by
  apply hostTransaction_of_malformed
  simp only [malformed, sinkOf, placeOf_regAddr]
  split
  · simp [Place.sink_reg h]
  · rfl

theorem regAt_eq_none {off : Nat} (h : 0x18 ≤ off) : regAt off = none := by
  unfold regAt
  simp only [show off ≠ 0x00 by omega, show off ≠ 0x04 by omega, show off ≠ 0x08 by omega, show off ≠ 0x0C by omega,
    show off ≠ 0x10 by omega, show off ≠ 0x14 by omega, if_false]

/-- No access of space `REG` at an offset without a register names a place. -/
theorem placeOf_eq_none_of_regAt {c : Config} {a : Addr} (n : Size) (hs : spaceOf a = some .reg)
    (hr : regAt (offOf a) = none) : placeOf c a n = none := by
  unfold placeOf
  rw [hs]
  simp [hr]

/-! ### The fields of the constant registers in whole numbers (R30, R31) -/

/-- The grid and the band of an admitted build fit their register fields (R5). -/
theorem fields_fit_of_wf {c : Config} (h : c.wf = true) : c.w < 2 ^ 16 ∧ c.h < 2 ^ 16 ∧ c.b < 2 ^ 8 := by
  simp [Config.wf, Config.gridOk, Config.bandOk] at h
  omega

theorem dimWord_toNat_mod {c : Config} (h : c.w < 2 ^ 16) : (dimWord c).toNat % 2 ^ 16 = c.w := by
  have e := congrArg BitVec.toNat (dimWord_low c)
  simpa only [BitVec.extractLsb'_toNat, Nat.shiftRight_zero, BitVec.toNat_ofNat, Nat.mod_eq_of_lt h] using e

theorem dimWord_toNat_div {c : Config} (h : c.h < 2 ^ 16) : (dimWord c).toNat / 2 ^ 16 = c.h := by
  have hlt : (dimWord c).toNat / 2 ^ 16 < 2 ^ 16 := by have := (dimWord c).isLt; omega
  have e := congrArg BitVec.toNat (dimWord_high c)
  simpa only [BitVec.extractLsb'_toNat, Nat.shiftRight_eq_div_pow, BitVec.toNat_ofNat, Nat.mod_eq_of_lt h,
    Nat.mod_eq_of_lt hlt] using e

theorem paramWord_b_toNat {c : Config} (h : c.b < 2 ^ 8) : ((paramWord c).extractLsb' 0 8).toNat = c.b := by
  rw [paramWord_b, BitVec.toNat_ofNat, Nat.mod_eq_of_lt h]

/-- Settles O6: a read returns the register's word, whose fields are the build's; a write is malformed; no register is
at `0x18` or above. -/
theorem constantRegisters : Obligations.ConstantRegisters := by
  intro s
  refine ⟨hostTransaction_read_reg .id s, ⟨dimWord s.cfg, hostTransaction_read_reg .dim s, fun h => ?_⟩,
    ⟨paramWord s.cfg, hostTransaction_read_reg .param s, fun h => ?_, paramWord_k _, paramWord_t _, ?_,
      paramWord_zero _, fun h => ?_⟩, hostTransaction_read_reg .oorColor s, fun a v ha => ?_, fun t hspace hoff => ?_⟩
  · obtain ⟨hw, hh, -⟩ := fields_fit_of_wf h
    exact ⟨dimWord_toNat_mod hw, dimWord_toNat_div hh⟩
  · obtain ⟨-, -, hb⟩ := fields_fit_of_wf h
    exact paramWord_b_toNat hb
  · rw [paramWord_psel, beq_iff_eq]
  · rw [h]
    decide
  · simp only [List.mem_cons, List.not_mem_nil, or_false] at ha
    rcases ha with rfl | rfl | rfl | rfl
    · exact hostTransaction_write_reg (r := .id) (by decide) v s
    · exact hostTransaction_write_reg (r := .dim) (by decide) v s
    · exact hostTransaction_write_reg (r := .param) (by decide) v s
    · exact hostTransaction_write_reg (r := .oorColor) (by decide) v s
  · have hreg : regAt (offOf t.addr) = none := regAt_eq_none ((offOf_eq t.addr).symm ▸ hoff)
    exact hostTransaction_of_malformed
      (malformed_of_placeOf_eq_none (placeOf_eq_none_of_regAt _ (spaceOf_eq_reg hspace) hreg))

theorem readReg_status_resetOf (c : Config) : readReg (State.resetOf c) .status = 0#32 := by
  change statusWord false Flags.clear = 0#32
  decide

/-- Settles O7: a read of `REG.STATUS` returns the word of `BUSY` and the flags, and a write is malformed. -/
theorem statusRegister : Obligations.StatusRegister :=
  ⟨fun s => ⟨⟨statusWord s.busy s.flags, hostTransaction_read_reg .status s, statusWord_busy _ _,
      statusWord_fields _ _⟩, fun v => hostTransaction_write_reg (r := .status) (by decide) v s⟩, readReg_status_resetOf⟩

/-! ### The command words (R80, R81) -/

/-- A word is its two fields (R80). -/
theorem rsvField_append_opField (w : Word) : rsvField w ++ opField w = w := by
  unfold rsvField opField
  rw [BitVec.extractLsb'_append_extractLsb'_eq_extractLsb' (by omega)]
  exact BitVec.extractLsb'_eq_self

theorem rsvField_encode (i : Instr) : rsvField (encode i) = 0#28 := by cases i <;> rfl

theorem opField_encode (i : Instr) : opField (encode i) = opcode i := by cases i <;> rfl

/-- A word decodes to a command exactly when its reserved field is zero and its opcode is the command's (R81). -/
theorem decode_eq_ok_iff_fields {w : Word} {i : Instr} :
    decode w = .ok i ↔ rsvField w = 0#28 ∧ opField w = opcode i := by
  unfold decode
  by_cases hr : rsvField w = 0#28
  · simp only [hr, ne_eq, not_true_eq_false, if_false, true_and]
    generalize opField w = o
    revert o
    cases i <;> decide
  · simp [hr]

theorem decode_eq_ok_iff {w : Word} {i : Instr} : decode w = .ok i ↔ w = encode i := by
  rw [decode_eq_ok_iff_fields]
  constructor
  · rintro ⟨hr, ho⟩
    rw [← rsvField_append_opField w, hr, ho, encode]
  · rintro rfl
    exact ⟨rsvField_encode i, opField_encode i⟩

/-! ### Acceptance of a command (R153) -/

/-- A word written to `REG.CMD` is handled as a command write. -/
theorem hostTransaction_write_cmd (w : Word) (s : State) :
    hostTransaction (.write cmdAddr (.word w)) s = commandWrite (.write cmdAddr (.word w)) w s := rfl

section

variable {s : State} (t : Transaction)

theorem commandWrite_busy (w : Word) (h : s.busy = true) : commandWrite t w s = .next (refuse .ovr t s) := by
  obtain ⟨op, he⟩ := s.busy_iff.1 h
  simp [commandWrite, he]

theorem commandWrite_illegal {w : Word} (h : s.busy = false) (hw : ¬ legalWord w) :
    commandWrite t w s = .next (refuse .ill t s) := by
  have he := s.not_busy_iff.1 h
  cases hd : decode w with
  | error e => simp [commandWrite, he, hd]
  | ok i => exact absurd ⟨i, decode_eq_ok_iff.1 hd⟩ hw

theorem commandWrite_encode (i : Instr) (h : s.busy = false) : commandWrite t (encode i) s = startCommand i s := by
  simp [commandWrite, s.not_busy_iff.1 h, decode_eq_ok_iff.2 rfl]

end

theorem startCommand_nop (s : State) : startCommand .nop s = .next (respondOk s) := exec_nop _

theorem startCommand_instr (op : CoreOp) (s : State) : startCommand op.instr s = .next (accept op (respondOk s)) := by
  cases op <;> rfl

/-- `OPR` of a command in flight is the low three bits of its word (R25, R153). -/
theorem CoreOp.opr_eq (op : CoreOp) : op.opr = (encode op.instr).extractLsb' 0 3 := by cases op <;> rfl

/-- Settles O34: `REG.CMD` reads 0, and a word written to it is refused while busy, refused if illegal, else started. -/
theorem acceptanceOfACommand : Obligations.AcceptanceOfACommand := by
  refine fun s => ⟨hostTransaction_read_reg .cmd s, fun w => ?_⟩
  have hcmd := hostTransaction_write_cmd w s
  refine ⟨fun hb => ?_, fun hb hw => ?_, fun hb hw => ?_, fun op hb hw => ?_⟩
  · exact hcmd.trans (commandWrite_busy _ w hb)
  · exact hcmd.trans (commandWrite_illegal _ hb hw)
  · subst hw
    exact hcmd.trans ((commandWrite_encode _ .nop hb).trans (startCommand_nop s))
  · subst hw
    exact ⟨hcmd.trans ((commandWrite_encode _ op.instr hb).trans (startCommand_instr op s)), op.opr_eq⟩

/-! ### Reset (R35) -/

/-- Settles O4: the memories are empty at reset, and the registers read the build's words. -/
theorem resetStateIsAllZero : Obligations.ResetStateIsAllZero :=
  fun c => ⟨Memory.read_nil, Memory.read_nil, Memory.read_nil, resetOf_cfg c, State.idle_of_engine (resetOf_engine c),
    resetOf_flags c, rfl, rfl, rfl, rfl⟩

/-! ### The border invariants (R36) -/

/-- Zero heat fields meet the border invariants. -/
theorem coldBorder_of_empty {s : State} (hcur : s.cur = []) (hprev : s.prev = []) : s.ColdBorder := by
  constructor <;> intros <;> simp [hcur, hprev]

/-- Settles O46: both heat fields are empty at reset. -/
theorem coldBorderAtReset : Obligations.ColdBorderAtReset := fun _ => coldBorder_of_empty rfl rfl

/-- The border invariants speak of the build and the heat fields only. -/
theorem State.ColdBorder.congr {s u : State} (h : s.ColdBorder) (hcfg : u.cfg = s.cfg) (hcur : u.cur = s.cur)
    (hprev : u.prev = s.prev) : u.ColdBorder := by
  constructor
  · rw [hcfg, hcur]; exact h.curBorder
  · rw [hcfg, hprev]; exact h.prevBorder
  · rw [hcfg, hcur, hprev]; exact h.scrolled

section

variable {s : State} {r k : Nat}

/-- `STEP` keeps the border cells of `CUR` (R108). -/
theorem heatStep_cur_border (hr : r < s.cfg.h) (hk : k < s.cfg.w) (hb : border s.cfg r k = true) :
    (heatStep s).cur.read (idx s.cfg r k) = s.cur.read (idx s.cfg r k) := by
  rw [read_heatStep_cur s hr hk, if_neg (border_iff.1 hb)]

/-- After `STEP` a row of `PREV` is the row below it of `CUR` (R109). -/
theorem heatStep_prev_scrolled (hr : r + 1 < s.cfg.h) (hk : k < s.cfg.w) :
    (heatStep s).prev.read (idx s.cfg r k) = (heatStep s).cur.read (idx s.cfg (r + 1) k) := by
  have hr' : r < s.cfg.h := by omega
  rw [read_heatStep_prev s (idx_lt _ hr' hk), if_pos ((idx_add_w_lt_iff hr' hk).2 hr), idx_succ]

/-- `STEP` keeps the bottom row of `PREV` (R110). -/
theorem heatStep_prev_bottom (hr : r + 1 = s.cfg.h) (hk : k < s.cfg.w) :
    (heatStep s).prev.read (idx s.cfg r k) = s.prev.read (idx s.cfg r k) := by
  have hr' : r < s.cfg.h := by omega
  rw [read_heatStep_prev s (idx_lt _ hr' hk), if_neg]
  rw [idx_add_w_lt_iff hr' hk]
  omega

end

/-- The cell below a border column or below the row above the last is a border cell. -/
theorem border_succ {c : Config} {r k : Nat} (h : k = 0 ∨ k + 1 = c.w ∨ r + 2 = c.h) : border c (r + 1) k = true := by
  rw [border_iff, interior_iff]
  omega

/-- `STEP` keeps the border invariants: a border cell of `PREV` is scrolled from a border cell of `CUR`, or kept. -/
theorem heatStep_coldBorder {s : State} (h : s.ColdBorder) : (heatStep s).ColdBorder := by
  have hcur : ∀ r k, r < s.cfg.h → k < s.cfg.w → border s.cfg r k = true →
      (heatStep s).cur.read (idx s.cfg r k) = 0#8 := fun r k hr hk hb =>
    (heatStep_cur_border hr hk hb).trans (h.curBorder r k hr hk hb)
  refine ⟨hcur, fun r k hr hk hb => ?_, fun r k hr hk => heatStep_prev_scrolled hr hk⟩
  rw [heatStep_cfg] at hr hk hb ⊢
  by_cases hlast : r + 1 = s.cfg.h
  · rw [heatStep_prev_bottom hlast hk]
    exact h.prevBorder r k hr hk hb
  · have hr' : r + 1 < s.cfg.h := by omega
    rw [heatStep_prev_scrolled hr' hk]
    exact hcur (r + 1) k hr' hk (border_succ (by omega))

/-- Settles O47: `STEP` keeps the border invariants, a `CLEAR` or a `RESET` zeroes the heat fields, and no other move
changes them. -/
theorem coldBorderKeptByEveryStep : Obligations.ColdBorderKeptByEveryStep := fun _ _ =>
  step_keeps_heat (fun _ _ h => h.congr) (fun _ => coldBorder_of_empty) (fun _ => heatStep_coldBorder)

/-- Settles O48: every step keeps the build and, with no heat write to come, the border invariants. -/
theorem reachableStatesKeepTheInvariants : Obligations.ReachableStatesKeepTheInvariants := by
  intro c moves u _ hu
  have hcfg : u.cfg = c := hu.keeps (P := fun s => s.cfg = c) (fun _ _ h hstep => (step_cfg hstep).trans h) rfl
  refine ⟨hcfg, fun i => ⟨?_, ?_⟩, ?_, fun hmoves => ?_⟩
  · have := (u.cur.read i).isLt
    omega
  · have := (u.prev.read i).isLt
    omega
  · obtain ⟨-, -, -, -, hzero⟩ := statusWord_fields u.busy u.flags
    exact hzero
  · have hcold := hu.keeps (P := fun s => s.ColdBorder ∧ s.heatUntouched)
      (fun s u h hstep => coldBorderKeptByEveryStep s u h.1 h.2 hstep) ⟨coldBorder_of_empty rfl rfl, hmoves⟩
    exact hcold.1

end Sys2Proof.Machine
end

section
/-! SUPPORT. Memory accesses of the HOST and of the commands (spec/20_memory.md): what a read and a write do in each case,
a busy block, the pseudocode's loops in any order, and the byte lanes at a bridge. -/

namespace Sys2Proof.Machine

/-! ### The loops of the pseudocode (R57, R64) -/

section

variable {c : Config}

theorem mem_map_idx_of_perm_interiorCells {order : List (Nat × Nat)} (h : order.Perm (interiorCells c)) {j : Nat}
    (hj : j < c.n) : j ∈ order.map (fun x => idx c x.1 x.2) ↔ interiorAt c j = true := by
  obtain ⟨r, k, hr, hk, rfl⟩ := exists_idx hj
  rw [interiorAt_idx c hk, List.mem_map]
  constructor
  · rintro ⟨x, hx, he⟩
    have hint := (mem_interiorCells c x).1 (h.mem_iff.1 hx)
    obtain ⟨h1, h2⟩ := idx_inj (interior_lt hint).2 hk he
    rwa [← h1, ← h2]
  · exact fun hint => ⟨(r, k), h.mem_iff.2 ((mem_interiorCells c (r, k)).2 hint), rfl⟩

theorem mem_map_idx_of_perm_scrollCells {order : List (Nat × Nat)} (h : order.Perm (scrollCells c)) {j : Nat}
    (hj : j < c.n) : j ∈ order.map (fun x => idx c x.1 x.2) ↔ j + c.w < c.n := by
  obtain ⟨r, k, hr, hk, rfl⟩ := exists_idx hj
  rw [idx_add_w_lt_iff hr hk, List.mem_map]
  constructor
  · rintro ⟨x, hx, he⟩
    obtain ⟨hx1, hx2⟩ := (mem_scrollCells c x).1 (h.mem_iff.1 hx)
    rwa [← (idx_inj hx2 hk he).1]
  · exact fun hlast => ⟨(r, k), h.mem_iff.2 ((mem_scrollCells c (r, k)).2 ⟨hlast, hk⟩), rfl⟩

/-- Phase 1 of `STEP` stores the same in every visiting order: each interior cell is computed from `PREV` alone. -/
theorem computeLoop_eq_computePhase {order : List (Nat × Nat)} (h : order.Perm (interiorCells c)) (prev : Memory 8)
    {cur : Memory 8} (hcur : cur.wf c.n) : computeLoop c order prev cur = computePhase c prev cur := by
  have hcell : ∀ x ∈ order, x.1 < c.h ∧ x.2 < c.w := fun x hx =>
    interior_lt ((mem_interiorCells c x).1 (h.mem_iff.1 hx))
  have hval : ∀ x ∈ order, cellOfSum c (inBand c x.1) (nsum c prev.read (idx c x.1 x.2)) =
      cellValue c prev.read (idx c x.1 x.2) := fun x hx => by rw [cellValue, row_idx c (hcell x hx).2]
  refine Memory.ext_read (wf_forEach _ _ _ _ hcur fun x hx => idx_lt c (hcell x hx).1 (hcell x hx).2)
    (wf_computePhase c prev cur) fun j hj => ?_
  rw [computeLoop, read_forEach order _ _ cur _ hval, read_computePhase c prev cur j hj]
  simp only [mem_map_idx_of_perm_interiorCells h hj]

/-- Phase 2 of `STEP` stores the same in every visiting order: each row of `PREV` is read from `CUR` alone. -/
theorem scrollLoop_eq_scrollPhase {order : List (Nat × Nat)} (h : order.Perm (scrollCells c)) (cur : Memory 8)
    {prev : Memory 8} (hprev : prev.wf c.n) : scrollLoop c order cur prev = scrollPhase c cur prev := by
  have hcell : ∀ x ∈ order, x.1 < c.h ∧ x.2 < c.w := fun x hx => by
    have := (mem_scrollCells c x).1 (h.mem_iff.1 hx)
    omega
  have hval : ∀ x ∈ order, cur.read (idx c (x.1 + 1) x.2) = cur.read (idx c x.1 x.2 + c.w) := fun x _ => by
    rw [idx_succ]
  refine Memory.ext_read (wf_forEach _ _ _ _ hprev fun x hx => idx_lt c (hcell x hx).1 (hcell x hx).2)
    (wf_scrollPhase c cur prev) fun j hj => ?_
  rw [scrollLoop, read_forEach order _ _ prev (fun j => cur.read (j + c.w)) hval, read_scrollPhase c cur prev j hj]
  simp only [mem_map_idx_of_perm_scrollCells h hj]

/-- `RENDER` stores the same in every visiting order: each pixel is read from `CUR` alone. -/
theorem renderLoop_eq_renderPhase {order : List Nat} (h : order.Perm (renderCells c)) (cur : Memory 8)
    {fb : Memory 32} (hfb : fb.wf c.n) : renderLoop c order cur fb = renderPhase c cur fb := by
  have hmem : ∀ i, i ∈ order ↔ c.w ≤ i ∧ i < c.n := fun i => h.mem_iff.trans (mem_renderCells c i)
  refine Memory.ext_read (wf_forEach _ _ _ _ hfb fun i hi => ((hmem i).1 hi).2) (wf_renderPhase c cur fb) fun j hj => ?_
  have hval : ∀ i ∈ order, color c (cur.read (i - c.w)) = color c (cur.read (id i - c.w)) := fun _ _ => rfl
  rw [renderLoop, read_forEach order id _ fb (fun i => color c (cur.read (i - c.w))) hval,
    read_renderPhase c cur fb j hj]
  simp only [List.map_id, hmem, hj, and_true]

/-- The loop of `CLEAR` over all elements of a memory empties it, in every visiting order. -/
theorem clearLoop_eq_nil {w n : Nat} {order : List Nat} (h : order.Perm (List.range n)) {m : Memory w} (hm : m.wf n) :
    clearLoop order m = [] := by
  have hmem : ∀ i, i ∈ order ↔ i < n := fun i => h.mem_iff.trans List.mem_range
  refine Memory.ext_read (wf_forEach _ _ _ _ hm fun i hi => (hmem i).1 hi) (Memory.wf_nil n) fun j hj => ?_
  rw [clearLoop, read_forEach order id _ m (fun _ => 0#w) fun _ _ => rfl]
  simp only [List.map_id, hmem, hj, if_true, Memory.read_nil]

end

/-- Settles O22: each loop equals the pass that stands for it, in every visiting order. -/
theorem visitingOrderDoesNotMatter : Obligations.VisitingOrderDoesNotMatter := by
  intro s compute scroll pixels cells h hcompute hscroll hpixels hcells
  obtain ⟨-, hcur, hprev, hfb⟩ := h
  simp only [computeLoop_eq_computePhase hcompute s.prev hcur, scrollLoop_eq_scrollPhase hscroll _ hprev,
    renderLoop_eq_renderPhase hpixels _ hfb, clearLoop_eq_nil hcells hcur, clearLoop_eq_nil hcells hprev,
    clearLoop_eq_nil hcells hfb]
  exact ⟨exec_instr .step s, exec_instr .render s, exec_instr .tick s, exec_instr .clear s⟩

/-! ### The three answers to a read (R51) -/

section

variable {a : Addr} {n : Size} {s : State} {p : Place}

theorem memRead_malformed (h : placeOf s.cfg a n = none) : memRead a n s = refuse .bad (.read a n) s := by
  simp [memRead, h]

theorem memRead_memory_busy (h : placeOf s.cfg a n = some p) (hm : p.inMemory = true) (hb : s.busy = true) :
    memRead a n s = refuse .acc (.read a n) s := by
  simp [memRead, h, hm, hb]

theorem memRead_allowed (h : placeOf s.cfg a n = some p) (ha : p.inMemory = false ∨ s.busy = false) :
    memRead a n s = respondData (readPlace s p) s := by
  rcases ha with ha | ha <;> simp [memRead, h, ha]

end

/-! ### A read changes nothing but its response and, if refused, a flag (R58) -/

theorem refuse_not_answeredOk (f : StickyFlag) (t : Transaction) (s : State) : ¬ (refuse f t s).answeredOk := by
  rintro ⟨d, h⟩
  cases t <;> simp [refusalResponse] at h

theorem readPlace_respondData (v : Datum) (s : State) (p : Place) : readPlace (respondData v s) p = readPlace s p := by
  cases p with
  | reg r => cases r <;> rfl
  | pal | cur | prev | fb => rfl

section

variable (a : Addr) (n : Size) (s : State)

theorem memRead_frame :
    SameMemories s (memRead a n s) ∧ (memRead a n s).engine = s.engine ∧ (memRead a n s).cfg = s.cfg ∧
      (memRead a n s).schedule = s.schedule := by
  rcases memRead_cases a n s with ⟨-, h⟩ | ⟨p, -, -, -, h⟩ | ⟨p, -, -, h⟩ <;> rw [h] <;>
    exact ⟨⟨rfl, rfl, rfl⟩, rfl, rfl, rfl⟩

theorem memRead_flags_of_answeredOk (hok : (memRead a n s).answeredOk) : (memRead a n s).flags = s.flags := by
  rcases memRead_cases a n s with ⟨-, h⟩ | ⟨p, -, -, -, h⟩ | ⟨p, -, -, h⟩ <;> rw [h] at hok ⊢
  · exact absurd hok (refuse_not_answeredOk _ _ _)
  · exact absurd hok (refuse_not_answeredOk _ _ _)
  · rfl

/-- Reading again returns the same response: a refused read is refused again, and a register or an element read keeps its
value. -/
theorem memRead_rsp_again : (memRead a n (memRead a n s)).rsp = (memRead a n s).rsp := by
  rcases memRead_cases a n s with ⟨hp, h⟩ | ⟨p, hp, hm, hb, h⟩ | ⟨p, hp, ha, h⟩ <;> rw [h]
  · rw [memRead_malformed (s := refuse _ _ s) hp]
    rfl
  · rw [memRead_memory_busy (s := refuse _ _ s) hp hm hb]
    rfl
  · rw [memRead_allowed (s := respondData _ s) hp ha, readPlace_respondData]
    rfl

end

/-! ### What names a register (R50, R53) -/

section

variable {c : Config} {a : Addr} {n : Size}

theorem space_eq_zero_of_spaceOf (h : spaceOf a = some .reg) : a.toNat / 2 ^ 24 = 0 := by
  rw [spaceOf_eq] at h
  by_contra h0
  rw [if_neg h0] at h
  split_ifs at h <;> cases h

theorem regAt_eq_cmd {off : Nat} (h : regAt off = some .cmd) : off = 0x04 := by
  by_contra h4
  simp only [regAt, if_neg h4] at h
  split_ifs at h <;> cases h

/-- An access that names a register is in space `REG`, at the register's offset. -/
theorem placeOf_eq_reg {r : Reg} (h : placeOf c a n = some (.reg r)) :
    spaceOf a = some .reg ∧ regAt (offOf a) = some r := by
  unfold placeOf at h
  split at h
  case h_1 hs =>
    split at h
    · obtain ⟨r', hr, he⟩ := Option.map_eq_some_iff.1 h
      cases he
      exact ⟨hs, hr⟩
    · cases h
  all_goals simp at h

theorem inMemory_of_one_le_space {p : Place} (h : placeOf c a n = some p) (ha : 1 ≤ a.toNat / 2 ^ 24) :
    p.inMemory = true := by
  cases p with
  | reg r =>
    have := space_eq_zero_of_spaceOf (placeOf_eq_reg h).1
    omega
  | pal | cur | prev | fb => rfl

theorem Place.eq_cmd_of_sink {p : Place} (h : p.sink = some .cmd) : p = .reg .cmd := by
  cases p with
  | reg r =>
    by_contra hr
    rw [Place.sink_reg fun hcmd => hr (hcmd ▸ rfl)] at h
    cases h
  | pal | cur | prev | fb => cases h

/-- A write whose sink is `REG.CMD` is a write at its address. -/
theorem isCommandWrite_of_sinkOf {v : Datum} (h : sinkOf c a v.size = some .cmd) :
    (Transaction.write a v).isCommandWrite := by
  obtain ⟨p, hp, hk⟩ := Option.bind_eq_some_iff.1 h
  rw [Place.eq_cmd_of_sink hk] at hp
  obtain ⟨hspace, hreg⟩ := placeOf_eq_reg hp
  exact ⟨rfl, space_eq_zero_of_spaceOf hspace, (offOf_eq a).symm.trans (regAt_eq_cmd hreg)⟩

end

/-- A store leaves every element that its sink does not name as it is. -/
theorem read_write_of_sink_ne {w i : Nat} {sink : Option Sink} {place : Nat → Sink} (hi : sink = some (place i))
    (m : Memory w) (x : BitVec w) (j : Nat) (hj : sink ≠ some (place j)) : (m.write i x).read j = m.read j := by
  rw [Memory.read_write, if_neg]
  rintro rfl
  exact hj hi

/-- A write that is not to `REG.CMD` is refused or stores one element, the one its address names. -/
theorem memWrite_of_not_isCommandWrite {a : Addr} {v : Datum} {s : State}
    (h : ¬ (Transaction.write a v).isCommandWrite) :
    ∃ u, memWrite a v s = .next u ∧ u.engine = s.engine ∧ u.cfg = s.cfg ∧ u.schedule = s.schedule ∧
      (u.answeredOk → u.flags = s.flags) ∧
      (∀ i, sinkOf s.cfg a v.size ≠ some (.cur i) → u.cur.read i = s.cur.read i) ∧
      (∀ i, sinkOf s.cfg a v.size ≠ some (.prev i) → u.prev.read i = s.prev.read i) ∧
      (∀ i, sinkOf s.cfg a v.size ≠ some (.fb i) → u.fb.read i = s.fb.read i) := by
  rcases memWrite_cases a v s with ⟨-, h'⟩ | ⟨k, -, -, -, h'⟩ | ⟨hk, -⟩ | ⟨i, hk, -, h'⟩ | ⟨i, hk, -, h'⟩ |
    ⟨i, hk, -, h'⟩
  · exact ⟨_, h', rfl, rfl, rfl, fun hok => absurd hok (refuse_not_answeredOk _ _ _), fun _ _ => rfl, fun _ _ => rfl,
      fun _ _ => rfl⟩
  · exact ⟨_, h', rfl, rfl, rfl, fun hok => absurd hok (refuse_not_answeredOk _ _ _), fun _ _ => rfl, fun _ _ => rfl,
      fun _ _ => rfl⟩
  · exact absurd (isCommandWrite_of_sinkOf hk) h
  · exact ⟨_, h', rfl, rfl, rfl, fun _ => rfl, read_write_of_sink_ne (place := .cur) hk _ _, fun _ _ => rfl, fun _ _ => rfl⟩
  · exact ⟨_, h', rfl, rfl, rfl, fun _ => rfl, fun _ _ => rfl, read_write_of_sink_ne (place := .prev) hk _ _, fun _ _ => rfl⟩
  · exact ⟨_, h', rfl, rfl, rfl, fun _ => rfl, fun _ _ => rfl, fun _ _ => rfl, read_write_of_sink_ne (place := .fb) hk _ _⟩

/-- Settles O11: a read answers and sets at most a flag; a write with another sink than `REG.CMD` stores one element. -/
theorem onlyTheCommandRegisterHasSideEffects : Obligations.OnlyTheCommandRegisterHasSideEffects := by
  refine ⟨fun s a n => ?_, fun s t hwrite hcmd => ?_⟩
  · obtain ⟨hmem, hengine, hcfg, hschedule⟩ := memRead_frame a n s
    exact ⟨memRead a n s, rfl, hmem, hengine, hcfg, hschedule, memRead_flags_of_answeredOk a n s, _, rfl,
      memRead_rsp_again a n s⟩
  · cases t with
    | read a n => cases hwrite
    | write a v => exact memWrite_of_not_isCommandWrite hcmd

/-! ### Accesses to elements while idle (R51, R55) -/

theorem sinkOf_of_placeOf {c : Config} {a : Addr} {n : Size} {p : Place} (h : placeOf c a n = some p) :
    sinkOf c a n = p.sink := by
  simp [sinkOf, h]

theorem lt_of_wf {c : Config} (h : c.wf = true) {i : Nat} (hi : i < c.n) : i < 2 ^ 22 := hi.trans_le (n_le_of_wf h)

/-- The data line carries a byte whole (R201). -/
theorem line_byte_truncate (v : Byte) : (Datum.byte v).line.truncate 8 = v :=
  BitVec.setWidth_setWidth_of_le v (by omega) |>.trans (BitVec.setWidth_eq v)

section

variable {s : State} (hb : s.busy = false)
include hb

theorem hostTransaction_write_idle {a : Addr} {v : Datum} {k : Sink} (h : sinkOf s.cfg a v.size = some k) :
    hostTransaction (.write a v) s = storeSink (.write a v) v.line s k := by
  simp [hostTransaction, memWrite, h, hb]

theorem hostTransaction_read_idle {a : Addr} {n : Size} {p : Place} (h : placeOf s.cfg a n = some p) :
    hostTransaction (.read a n) s = .next (respondData (readPlace s p) s) :=
  congrArg _ (memRead_allowed h (.inr hb))

theorem takeTurn_peekPal {k : Nat} (hk : k < s.cfg.p.entries) :
    takeTurn (peekPal k) s = .next (respondData (.word (palAt s.cfg k)) s) :=
  hostTransaction_read_idle hb (placeOf_palAddr s.cfg hk)

variable (hw : s.cfg.wf = true) {i : Nat} (hi : i < s.cfg.n)
include hw hi

theorem takeTurn_pokeCur (v : Byte) :
    takeTurn (pokeCur i v) s = .next (respondOk { s with cur := s.cur.write i v }) := by
  have h := hostTransaction_write_idle hb (v := .byte v)
    (sinkOf_of_placeOf (placeOf_curAddr s.cfg (lt_of_wf hw hi) hi))
  rwa [storeSink, line_byte_truncate] at h

theorem takeTurn_pokePrev (v : Byte) :
    takeTurn (pokePrev i v) s = .next (respondOk { s with prev := s.prev.write i v }) := by
  have h := hostTransaction_write_idle hb (v := .byte v)
    (sinkOf_of_placeOf (placeOf_prevAddr s.cfg (lt_of_wf hw hi) hi))
  rwa [storeSink, line_byte_truncate] at h

theorem takeTurn_pokeFb (v : Word) :
    takeTurn (pokeFb i v) s = .next (respondOk { s with fb := s.fb.write i v }) :=
  hostTransaction_write_idle hb (v := .word v) (sinkOf_of_placeOf (placeOf_fbAddr s.cfg (lt_of_wf hw hi) hi))

theorem takeTurn_peekCur : takeTurn (peekCur i) s = .next (respondData (.byte (s.cur.read i)) s) :=
  hostTransaction_read_idle hb (placeOf_curAddr s.cfg (lt_of_wf hw hi) hi)

theorem takeTurn_peekPrev : takeTurn (peekPrev i) s = .next (respondData (.byte (s.prev.read i)) s) :=
  hostTransaction_read_idle hb (placeOf_prevAddr s.cfg (lt_of_wf hw hi) hi)

theorem takeTurn_peekFb : takeTurn (peekFb i) s = .next (respondData (.word (s.fb.read i)) s) :=
  hostTransaction_read_idle hb (placeOf_fbAddr s.cfg (lt_of_wf hw hi) hi)

end

/-- Settles O13: a `POKE` while idle is a write of its element. -/
theorem hostWriteStoresExactly : Obligations.HostWriteStoresExactly := by
  intro s i h hb hi
  exact ⟨fun v => ⟨_, takeTurn_pokeCur hb h.build hi v, ⟨_, rfl⟩, fun j => Memory.read_write _ i j v, rfl, rfl, rfl, rfl,
      rfl, rfl⟩,
    fun v => ⟨_, takeTurn_pokePrev hb h.build hi v, ⟨_, rfl⟩, fun j => Memory.read_write _ i j v, rfl, rfl, rfl, rfl,
      rfl, rfl⟩,
    fun v => ⟨_, takeTurn_pokeFb hb h.build hi v, ⟨_, rfl⟩, fun j => Memory.read_write _ i j v, rfl, rfl, rfl, rfl,
      rfl, rfl⟩⟩

/-! ### A move and the next one -/

/-- The step of a move at the head of the schedule. -/
theorem step_of_schedule {s : State} {t : Turn} {rest : List Turn} (hs : s.schedule = t :: rest) :
    step s = takeTurn t (dropTurn s) := by
  unfold step nextMove
  rw [hs]

/-- The run of two scheduled moves is the first, then the second from where it ends. -/
theorem run_two_moves {s u v : State} {t₁ t₂ : Turn} (h₁ : takeTurn t₁ { s with schedule := [t₂] } = .next u)
    (hu : u.schedule = [t₂]) (h₂ : takeTurn t₂ (dropTurn u) = .next v) :
    run 2 { s with schedule := [t₁, t₂] } = .next v := by
  rw [run_succ (u := u) ((step_of_schedule rfl).trans h₁), run_succ (u := v) ((step_of_schedule hu).trans h₂), run_zero]

/-- Settles O14: the `PEEK` after the `POKE` reads the memory that the `POKE` has written. -/
theorem hostReadsTheLatestWrite : Obligations.HostReadsTheLatestWrite := by
  intro s i j h hb hi hj
  have hw := h.build
  refine ⟨fun v => ?_, fun v => ?_, fun v => ?_, fun k => takeTurn_peekPal hb⟩
  · refine ⟨_, run_two_moves (takeTurn_pokeCur ?_ ?_ ?_ v) rfl (takeTurn_peekCur ?_ ?_ ?_), ?_⟩
    exacts [hb, hw, hi, hb, hw, hj, by simp]
  · refine ⟨_, run_two_moves (takeTurn_pokePrev ?_ ?_ ?_ v) rfl (takeTurn_peekPrev ?_ ?_ ?_), ?_⟩
    exacts [hb, hw, hi, hb, hw, hj, by simp]
  · refine ⟨_, run_two_moves (takeTurn_pokeFb ?_ ?_ ?_ v) rfl (takeTurn_peekFb ?_ ?_ ?_), ?_⟩
    exacts [hb, hw, hi, hb, hw, hj, by simp]

/-! ### A busy block (R56, R63) -/

/-- While busy every write is refused: a memory with `ACC`, `REG.CMD` with `OVR`, a malformed one with `BAD`. -/
theorem memWrite_busy {s : State} (hb : s.busy = true) (a : Addr) (v : Datum) :
    ∃ f, memWrite a v s = .next (refuse f (.write a v) s) := by
  have hidle : s.busy ≠ false := by simp [hb]
  rcases memWrite_cases a v s with ⟨-, h⟩ | ⟨k, -, -, -, h⟩ | ⟨-, h⟩ | ⟨i, -, hi, -⟩ | ⟨i, -, hi, -⟩ | ⟨i, -, hi, -⟩
  · exact ⟨_, h⟩
  · exact ⟨_, h⟩
  · exact ⟨_, h.trans (commandWrite_busy _ _ hb)⟩
  all_goals exact absurd hi hidle

/-- While busy a transaction is refused, or it reads a register. -/
theorem hostTransaction_busy {s : State} (hb : s.busy = true) (t : Transaction) :
    ∃ u, hostTransaction t s = .next u ∧
      ((∃ f, u = refuse f t s) ∨ t.space = 0 ∧ ∃ v, u = respondData v s) := by
  cases t with
  | read a n =>
    refine ⟨_, rfl, ?_⟩
    rcases memRead_cases a n s with ⟨-, h⟩ | ⟨p, -, -, -, h⟩ | ⟨p, hp, ha, h⟩
    · exact .inl ⟨_, h⟩
    · exact .inl ⟨_, h⟩
    · have hm : p.inMemory = false := ha.resolve_right (by simp [hb])
      refine .inr ⟨?_, _, h⟩
      by_contra hspace
      have := inMemory_of_one_le_space hp (Nat.one_le_iff_ne_zero.2 hspace)
      simp [hm] at this
  | write a v =>
    obtain ⟨f, h⟩ := memWrite_busy hb a v
    exact ⟨_, h, .inl ⟨f, rfl⟩⟩

/-- While busy a transaction changes only the flags and the response. -/
theorem hostTransaction_busy_frame {s : State} (hb : s.busy = true) (t : Transaction) :
    ∃ u, hostTransaction t s = .next u ∧ SameMemories s u ∧ u.engine = s.engine ∧ u.cfg = s.cfg ∧
      u.schedule = s.schedule := by
  obtain ⟨u, hu, ⟨f, rfl⟩ | ⟨-, v, rfl⟩⟩ := hostTransaction_busy hb t <;>
    exact ⟨_, hu, ⟨rfl, rfl, rfl⟩, rfl, rfl, rfl⟩

/-- A refused transaction returns no data but 0 (R171). -/
theorem refusalResponse_data {t : Transaction} {d : Resp} {v : Datum}
    (h : refusalResponse t = { resp := d, data := some v }) : v.line = 0#32 := by
  cases t with
  | read a n => cases n <;> cases h <;> rfl
  | write a x => cases h

/-- Settles O15: while busy a transaction is refused, unless it reads a register. -/
theorem busyProtectsTheMemories : Obligations.BusyProtectsTheMemories := by
  intro s t hb
  obtain ⟨u, hu, ⟨f, rfl⟩ | ⟨hspace, v, rfl⟩⟩ := hostTransaction_busy hb t
  · exact ⟨_, hu, ⟨rfl, rfl, rfl⟩, rfl, rfl, fun _ => ⟨refuse_answeredErr f t s, fun _ _ h =>
      refusalResponse_data (Option.some.inj h)⟩⟩
  · exact ⟨_, hu, ⟨rfl, rfl, rfl⟩, rfl, rfl, fun h => by omega⟩

/-! ### Traffic while a command is in flight (R63, R155) -/

@[simp] theorem CoreOp.effect_schedule (op : CoreOp) (s : State) : (op.effect s).schedule = s.schedule := by
  cases op <;> rfl

theorem SameMemories.trans {s t u : State} (h : SameMemories s t) (h' : SameMemories t u) : SameMemories s u :=
  ⟨h'.cur.trans h.cur, h'.prev.trans h.prev, h'.fb.trans h.fb⟩

theorem dropTurn_sameMemories (s : State) : SameMemories s (dropTurn s) := ⟨rfl, rfl, rfl⟩

theorem finish_sameMemories (s : State) : SameMemories s (finish s) := ⟨rfl, rfl, rfl⟩

/-- The completion that follows any transactions ends with the effect of the command on the memories at the start. -/
theorem run_traffic_complete {op : CoreOp} {rest : List Turn} (ts : List Transaction) :
    ∀ {s : State}, s.engine = .running op → s.schedule = ts.map Turn.host ++ .complete :: rest →
      ∃ u, run (ts.length + 1) s = .next u ∧ SameMemories (op.effect s) u ∧ u.engine = .idle ∧ u.schedule = rest ∧
        u.cfg = s.cfg := by
  induction ts with
  | nil =>
    intro s he hs
    have hstep : step s = .next (finish (op.effect (dropTurn s))) := by
      rw [step_of_schedule hs, ← exec_instr]
      simp [takeTurn, coreTurn, he]
    have hmem := op.effect_sameMemories (dropTurn_cfg s) (dropTurn_sameMemories s)
    exact ⟨_, run_succ hstep 0, hmem.trans (finish_sameMemories _), rfl, by simp [hs], by simp⟩
  | cons t ts ih =>
    intro s he hs
    obtain ⟨u, hu, hmem, hengine, hcfg, hschedule⟩ :=
      hostTransaction_busy_frame (State.busy_of_engine (s := dropTurn s) he) t
    have hrest : u.schedule = ts.map Turn.host ++ .complete :: rest := by simp [hschedule, hs]
    obtain ⟨v, hv, hmem', hidle, hschedule', hcfg'⟩ := ih (hengine.trans he) hrest
    have hstart := op.effect_sameMemories (hcfg.trans (dropTurn_cfg s)) ((dropTurn_sameMemories s).trans hmem)
    refine ⟨v, ?_, hstart.trans hmem', hidle, hschedule', hcfg'.trans hcfg⟩
    exact (run_succ ((step_of_schedule hs).trans hu) _).trans hv

/-- Settles O37: transactions to a busy block keep the memories and the command in flight, so the completion is that from
the start. -/
theorem trafficDoesNotDisturbTheCommand : Obligations.TrafficDoesNotDisturbTheCommand := by
  intro s op ts rest he hs
  obtain ⟨u, hu, ⟨hcur, hprev, hfb⟩, hidle, hschedule, hcfg⟩ := run_traffic_complete ts he hs
  exact ⟨u, _, exec_instr op s, hu, ⟨hcur, hprev, hfb⟩, State.idle_of_engine hidle, hschedule, hcfg⟩

/-! ### Byte lanes at a bridge (R54) -/

theorem lanes_append (v : Word) : lane v 3 ++ lane v 2 ++ lane v 1 ++ lane v 0 = v := by
  unfold lane
  rw [BitVec.extractLsb'_append_extractLsb'_eq_extractLsb' (by omega),
    BitVec.extractLsb'_append_extractLsb'_eq_extractLsb' (by omega),
    BitVec.extractLsb'_append_extractLsb'_eq_extractLsb' (by omega)]
  exact BitVec.extractLsb'_eq_self

theorem fbByte_congr {s u : State} (h : u.fb = s.fb) (a : Nat) : fbByte u a = fbByte s a := by
  rw [fbByte, fbByte, h]

/-- Settles O43: the lanes are consecutive fields of the word, the channels among them, and `STEP` keeps `FB`. -/
theorem bridgeByteLanes : Obligations.BridgeByteLanes :=
  ⟨fun v => ⟨lanes_append v, rfl, rfl, rfl, rfl⟩,
    fun s => ⟨_, exec_instr .step s, fbByte_congr (u := finish (heatStep s)) rfl⟩⟩

end Sys2Proof.Machine
end

section
/-! SUPPORT. The command words (spec/30_encoding.md): which words are commands, what the decoder says of the others, and
the `RUN` of a command from the write of its word to the last poll of `REG.STATUS`. -/

namespace Sys2Proof.Machine

/-! ### The fields of a word in whole numbers (R80, R81) -/

theorem rsvField_eq_zero_iff (w : Word) : rsvField w = 0#28 ↔ w.toNat / 16 = 0 := by
  have := w.isLt
  rw [rsvField, BitVec.toNat_eq, BitVec.extractLsb'_toNat, Nat.shiftRight_eq_div_pow, BitVec.toNat_ofNat]
  omega

theorem opField_toNat (w : Word) : (opField w).toNat = w.toNat % 16 := by
  simp [opField]

/-- The opcodes are the values 0 to 4 (R81). -/
theorem exists_eq_opcode_iff (o : BitVec 4) : (∃ i, o = opcode i) ↔ o.toNat ≤ 4 := by
  constructor
  · rintro ⟨i, rfl⟩
    cases i <;> decide
  · intro h
    interval_cases ho : o.toNat
    exacts [⟨.nop, BitVec.eq_of_toNat_eq ho⟩, ⟨.step, BitVec.eq_of_toNat_eq ho⟩, ⟨.render, BitVec.eq_of_toNat_eq ho⟩,
      ⟨.tick, BitVec.eq_of_toNat_eq ho⟩, ⟨.clear, BitVec.eq_of_toNat_eq ho⟩]

/-- A word selects a command exactly when its reserved field is zero and its opcode is assigned (R81). -/
theorem exists_decode_eq_ok_iff (w : Word) : (∃ i, decode w = .ok i) ↔ w.toNat / 16 = 0 ∧ w.toNat % 16 ≤ 4 := by
  simp only [decode_eq_ok_iff_fields, exists_and_left, exists_eq_opcode_iff, rsvField_eq_zero_iff, opField_toNat]

/-- Settles O2: the encoder gives the table's words, and the decoder compares both fields of a word. -/
theorem wordsAndCommandsAgree : Obligations.WordsAndCommandsAgree :=
  ⟨⟨rfl, rfl, rfl, rfl, rfl⟩, fun _ _ => decode_eq_ok_iff, exists_decode_eq_ok_iff⟩

/-! ### The decoder on each kind of word (R81, R83) -/

theorem decode_encode (i : Instr) : decode (encode i) = .ok i := decode_eq_ok_iff.2 rfl

theorem decode_reservedBitsSet {w : Word} (h : rsvField w ≠ 0#28) : decode w = .error .reservedBitsSet := by
  simp [decode, h]

/-- With a zero reserved field, a word that is no command is rejected for its opcode. -/
theorem decode_unassignedOpcode {w : Word} (hr : rsvField w = 0#28) (ho : 4 < (opField w).toNat) :
    decode w = .error .unassignedOpcode := by
  have hne (i : Instr) : opField w ≠ opcode i := fun h => by
    have := (exists_eq_opcode_iff _).1 ⟨i, h⟩
    omega
  exact (if_neg (not_not.2 hr)).trans <| (if_neg (hne .nop)).trans <| (if_neg (hne .step)).trans <|
    (if_neg (hne .render)).trans <| (if_neg (hne .tick)).trans <| if_neg (hne .clear)

/-- Settles O1: the five words are those of the encoder; 5 has an unassigned opcode, 0x11 a reserved bit set. -/
theorem decodeTheFiveCommandWords : Obligations.DecodeTheFiveCommandWords :=
  ⟨decode_encode .nop, decode_encode .step, decode_encode .render, decode_encode .tick, decode_encode .clear,
    decode_unassignedOpcode (by decide) (by decide), decode_reservedBitsSet (by decide)⟩

/-! ### An illegal word (R83) -/

/-- Settles O3: an illegal word written to `REG.CMD` is refused, with `ILL` while idle and with `OVR` while busy. -/
theorem illegalWordIsNeverExecuted : Obligations.IllegalWordIsNeverExecuted := by
  intro s w hw
  have hcmd := hostTransaction_write_cmd w s
  cases hb : s.busy with
  | false =>
    exact ⟨_, hcmd.trans (commandWrite_illegal _ hb hw), refuse_answeredErr .ill _ s, ⟨rfl, rfl, rfl⟩, rfl, rfl, rfl,
      fun _ => ⟨hb, rfl⟩, nofun⟩
  | true =>
    exact ⟨_, hcmd.trans (commandWrite_busy _ w hb), refuse_answeredErr .ovr _ s, ⟨rfl, rfl, rfl⟩, rfl, rfl, rfl,
      nofun, fun _ => rfl⟩

/-! ### The turn of the CORE, busy or idle (R154) -/

/-- What the CORE's next turn does to the memories: the effect of the command in flight, nothing while idle. -/
def Engine.effect : Engine → State → State
  | .idle, s => s
  | .running op, s => op.effect s

/-- The CORE's turn applies the effect and leaves the block idle. -/
theorem coreTurn_eq (s : State) : coreTurn s = .next (finish (s.engine.effect s)) := by
  rcases coreTurn_cases s with ⟨he, h⟩ | ⟨op, he, h⟩
  · have hfinish : finish s = s := by rw [finish, ← he]
    rw [h, he, Engine.effect, hfinish]
  · rw [h, he, Engine.effect]

/-- An effect neither reads nor writes the moves to come and the response. -/
theorem Engine.effect_schedule_rsp (e : Engine) (s : State) (l : List Turn) (r : Option Response) :
    e.effect { s with schedule := l, rsp := r } = { e.effect s with schedule := l, rsp := r } := by
  cases e with
  | idle => rfl
  | running op => cases op <;> rfl

@[simp] theorem Engine.effect_cfg (e : Engine) (s : State) : (e.effect s).cfg = s.cfg := by
  cases e with
  | idle => rfl
  | running op => exact op.effect_cfg s

@[simp] theorem Engine.effect_flags (e : Engine) (s : State) : (e.effect s).flags = s.flags := by
  cases e with
  | idle => rfl
  | running op => exact op.effect_flags s

/-! ### `WAIT` and `RUN` (R59, R86) -/

theorem dropTurn_eq {s : State} {t : Turn} {rest : List Turn} (hs : s.schedule = t :: rest) :
    dropTurn s = { s with schedule := rest } := by
  rw [dropTurn, hs, List.tail_cons]

theorem readReg_schedule (s : State) (l : List Turn) (r : Reg) : readReg { s with schedule := l } r = readReg s r := by
  cases r <;> rfl

/-- The step of a scheduled read of a register returns its word and changes nothing else. -/
theorem step_peekReg {s : State} {r : Reg} {rest : List Turn} (hs : s.schedule = peekReg r :: rest) :
    step s = .next (respondData (.word (readReg s r)) { s with schedule := rest }) := by
  rw [step_of_schedule hs, dropTurn_eq hs, ← readReg_schedule s rest r]
  exact hostTransaction_read_reg r _

/-- Reads of a register change nothing but the response, busy or idle. -/
theorem run_peekReg_replicate (r : Reg) (rest : List Turn) (n : Nat) :
    ∀ {s : State}, s.schedule = List.replicate n (peekReg r) ++ rest →
      ∃ rsp, run n s = .next { s with schedule := rest, rsp := rsp } := by
  induction n with
  | zero =>
    intro s hs
    subst hs
    exact ⟨s.rsp, rfl⟩
  | succ n ih =>
    intro s hs
    obtain ⟨rsp, h⟩ := ih (s := respondData (.word (readReg s r)) { s with
      schedule := List.replicate n (peekReg r) ++ rest }) rfl
    exact ⟨rsp, (run_succ (step_peekReg hs) n).trans h⟩

/-- The step of the CORE's scheduled turn. -/
theorem step_complete {s : State} {rest : List Turn} (hs : s.schedule = .complete :: rest) :
    step s = .next (finish (s.engine.effect { s with schedule := rest })) := by
  rw [step_of_schedule hs, dropTurn_eq hs]
  exact coreTurn_eq _

/-- `WAIT` ends idle with the effect of the command in flight, its last poll showing `BUSY = 0` (R59). -/
theorem run_wait {s : State} {polls : Nat} {rest : List Turn} (hs : s.schedule = wait polls ++ rest) :
    run (polls + 2) s = .next (respondData (.word (statusWord false s.flags))
      { finish (s.engine.effect s) with schedule := rest }) := by
  rw [wait, List.append_assoc] at hs
  obtain ⟨rsp, hpolls⟩ := run_peekReg_replicate .status _ polls hs
  have hdone : step { s with schedule := .complete :: peekReg .status :: rest, rsp := rsp } =
      .next { finish (s.engine.effect s) with schedule := peekReg .status :: rest, rsp := rsp } :=
    (step_complete rfl).trans (congrArg (fun v => Host.Outcome.next (finish v)) (s.engine.effect_schedule_rsp s _ rsp))
  have hlast := step_peekReg (r := .status) (rest := rest)
    (s := { finish (s.engine.effect s) with schedule := peekReg .status :: rest, rsp := rsp }) rfl
  have hstatus : readReg { finish (s.engine.effect s) with schedule := peekReg .status :: rest, rsp := rsp } .status =
      statusWord false s.flags := congrArg (statusWord false) (s.engine.effect_flags s)
  rw [hstatus] at hlast
  exact (run_add polls 2 hpolls).trans ((run_succ hdone 1).trans (run_succ hlast 0))

/-- The step that writes a command's word to an idle block leaves the command's effect to the CORE's next turn; `NOP`
has none (R150, R153). -/
theorem step_cmd {s : State} (hb : s.busy = false) {i : Instr} {rest : List Turn} (hs : s.schedule = cmd i :: rest) :
    ∃ t u, exec i s = .next t ∧ step s = .next u ∧ SameMemories t (u.engine.effect u) ∧ u.flags = s.flags ∧
      u.cfg = s.cfg ∧ u.schedule = rest := by
  have hstep : step s = startCommand i (dropTurn s) :=
    (step_of_schedule hs).trans ((hostTransaction_write_cmd _ _).trans (commandWrite_encode _ i hb))
  have hrest : (dropTurn s).schedule = rest := by rw [dropTurn_eq hs]
  obtain rfl | ⟨op, rfl⟩ := instr_eq_nop_or_coreOp i
  · have hidle := s.not_busy_iff.1 hb
    refine ⟨s, _, exec_nop s, hstep.trans (startCommand_nop _), ?_, rfl, rfl, hrest⟩
    rw [respondOk_engine, dropTurn_engine, hidle]
    exact ⟨rfl, rfl, rfl⟩
  · have hmem : SameMemories (op.effect s) (op.effect (accept op (respondOk (dropTurn s)))) :=
      op.effect_sameMemories rfl ⟨rfl, rfl, rfl⟩
    exact ⟨_, _, exec_instr op s, hstep.trans (startCommand_instr op _), ⟨hmem.cur, hmem.prev, hmem.fb⟩, rfl, rfl, hrest⟩

/-- Settles O38: the write of the word leaves the command's effect to the CORE, and `WAIT` has the CORE apply it. -/
theorem runOfACommand : Obligations.RunOfACommand := by
  intro s i polls rest hb hs
  obtain ⟨t, u, ht, hu, ⟨hcur, hprev, hfb⟩, hflags, hcfg, hschedule⟩ := step_cmd hb hs
  refine ⟨t, _, ht, (run_succ hu _).trans (run_wait hschedule), ⟨hcur, hprev, hfb⟩, rfl, ?_, ?_, rfl, _, rfl,
    statusWord_busy false _⟩
  · exact (u.engine.effect_flags u).trans hflags
  · exact (u.engine.effect_cfg u).trans hcfg

end Sys2Proof.Machine
end

section
/-! SUPPORT. The heat step (spec/40_heat_step.md): the cell rule case by case, what `STEP` leaves in an interior cell, what
it depends on, how far heat rises, and the left-right symmetry of the fields. -/

namespace Sys2Proof.Machine

/-! ### The cell rule in each of its cases (R104 to R106, R111) -/

section

variable {k t sum : Nat}

theorem cooledValue_of_mod_ne_zero (band : Bool) (h : sum % 4 ≠ 0) : cooledValue band sum = sum / 8 := by
  simp [cooledValue, h]

theorem cooledValue_of_average_pos (band : Bool) (hlt : sum < 2048) (h : sum % 4 = 0) (ha : 1 ≤ sum / 8) :
    cooledValue band sum = sum / 8 - 1 := by
  rw [cooledValue, if_pos ⟨h, .inl ha⟩]
  omega

/-- Outside the band an average of 0 is not decremented (R105). -/
theorem cooledValue_false_of_average_zero (ha : sum / 8 = 0) : cooledValue false sum = 0 := by
  simp [cooledValue, ha]

/-- In the band an average of 0 wraps (R105). -/
theorem cooledValue_true_of_average_zero (h : sum % 4 = 0) (ha : sum / 8 = 0) : cooledValue true sum = 255 := by
  simp [cooledValue, h, ha]

theorem cooledValue_false_le_average (hlt : sum < 2048) : cooledValue false sum ≤ sum / 8 := by
  by_cases h : sum % 4 = 0
  · by_cases ha : sum / 8 = 0
    · simp [cooledValue_false_of_average_zero ha]
    · rw [cooledValue_of_average_pos false hlt h (by omega)]
      omega
  · rw [cooledValue_of_mod_ne_zero false h]

theorem storedValue_false : storedValue k t false sum = cooledValue false sum := by
  simp [storedValue]

theorem storedValue_true_of_le (h : t ≤ cooledValue true sum) : storedValue k t true sum = cooledValue true sum := by
  rw [storedValue, if_neg]
  omega

theorem storedValue_true_of_lt (h : cooledValue true sum < t) :
    storedValue k t true sum = (k + 256 - cooledValue true sum) % 256 := if_pos ⟨rfl, h⟩

/-- A spark: no 8-bit threshold is above 255, so the wrapped value stays (R105, R106). -/
theorem storedValue_true_of_average_zero (ht : t < 256) (h : sum % 4 = 0) (ha : sum / 8 = 0) :
    storedValue k t true sum = 255 := by
  have hc := cooledValue_true_of_average_zero h ha
  rw [storedValue_true_of_le (by omega), hc]

end

/-- Settles O19: the cooled value in each case of the sum, kept or brightened by its place below or above `T`. -/
theorem cellTable : Obligations.CellTable := by
  intro c sum
  have hlt := sum.isLt
  simp only [cellOfSum_toNat, storedValue_false]
  refine ⟨cooledValue_of_mod_ne_zero false, cooledValue_of_average_pos false hlt,
    fun _ => cooledValue_false_of_average_zero, fun h ht => ?_, fun h ht => ?_, fun h ht => ?_, fun h ha ht => ?_,
    storedValue_true_of_average_zero c.t.isLt⟩
  · have hc := cooledValue_of_mod_ne_zero true h
    rw [storedValue_true_of_le (by omega), hc]
  · have hc := cooledValue_of_mod_ne_zero true h
    rw [storedValue_true_of_lt (by omega), hc]
  · have hc := cooledValue_of_average_pos true hlt h (by omega)
    rw [storedValue_true_of_le (by omega), hc]
  · have hc := cooledValue_of_average_pos true hlt h ha
    rw [storedValue_true_of_lt (by omega), hc]
    congr 1
    omega

/-! ### What `STEP` leaves in a cell of `CUR` -/

section

variable {s : State} {r k : Nat}

theorem exec_step (s : State) : exec .step s = .next (finish (heatStep s)) := exec_instr .step s

/-- `STEP` stores in an interior cell the value of the whole-number rule (R103 to R106). -/
theorem heatStep_cur_interior (h : interior s.cfg r k = true) :
    ((heatStep s).cur.read (idx s.cfg r k)).toNat =
      storedValue s.cfg.k.toNat s.cfg.t.toNat (inBand s.cfg r) (neighbourSum s.cfg s.prev r k) := by
  obtain ⟨hr, hk⟩ := interior_lt h
  rw [read_heatStep_cur s hr hk, if_pos h, cellOfSum_toNat, (nsum_toNat _ _ h).1]

/-- A sum of 0 or 4 sparks in the band (R105). -/
theorem heatStep_cur_spark (h : interior s.cfg r k = true) (hb : inBand s.cfg r = true)
    (hsum : neighbourSum s.cfg s.prev r k = 0 ∨ neighbourSum s.cfg s.prev r k = 4) :
    (heatStep s).cur.read (idx s.cfg r k) = 255#8 := by
  apply BitVec.eq_of_toNat_eq
  rw [heatStep_cur_interior h, hb, storedValue_true_of_average_zero s.cfg.t.isLt (by omega) (by omega)]
  rfl

theorem neighbourSum_eq_zero {c : Config} {m : Memory 8}
    (hm : ∀ q j, q ≤ r + 1 → j ≤ k + 1 → m.read (idx c q j) = 0#8) : neighbourSum c m r k = 0 := by
  have hcell : ∀ q j, q ≤ r + 1 → j ≤ k + 1 → cellNat c m q j = 0 := fun q j hq hj => by
    rw [cellNat, hm q j hq hj]
    rfl
  unfold neighbourSum
  rw [hcell (r - 1) (k - 1), hcell (r - 1) k, hcell (r - 1) (k + 1), hcell r (k - 1), hcell r (k + 1),
    hcell (r + 1) (k - 1), hcell (r + 1) k, hcell (r + 1) (k + 1)] <;> omega

/-- A cold cell that is not an interior cell of the band stays cold where `PREV` is cold down to the row below it. -/
theorem heatStep_cur_eq_zero (hr : r < s.cfg.h) (hk : k < s.cfg.w)
    (hb : ¬ (interior s.cfg r k = true ∧ inBand s.cfg r = true)) (hcur : s.cur.read (idx s.cfg r k) = 0#8)
    (hprev : ∀ q j, q ≤ r + 1 → q < s.cfg.h → j < s.cfg.w → s.prev.read (idx s.cfg q j) = 0#8) :
    (heatStep s).cur.read (idx s.cfg r k) = 0#8 := by
  by_cases h : interior s.cfg r k = true
  · have hband : inBand s.cfg r = false := by simpa [h] using hb
    obtain ⟨-, hr', -, hk'⟩ := (interior_iff _ _ _).1 h
    have hsum : neighbourSum s.cfg s.prev r k = 0 :=
      neighbourSum_eq_zero fun q j hq hj => hprev q j hq (by omega) (by omega)
    apply BitVec.eq_of_toNat_eq
    rw [heatStep_cur_interior h, hband, hsum, storedValue_false, cooledValue_false_of_average_zero rfl]
    rfl
  · rw [heatStep_cur_border hr hk (border_iff.2 h), hcur]

end

/-- Settles O18: the interior by the whole-number rule on an exact sum, the border kept, the rows of `PREV` scrolled. -/
theorem stepFollowsTheHeatRule : Obligations.StepFollowsTheHeatRule := fun s =>
  ⟨_, exec_step s, ⟨rfl, rfl, rfl, rfl⟩, State.idle_of_engine rfl, rfl,
    fun _ _ h => ⟨(nsum_toNat _ _ h).2, heatStep_cur_interior (s := s) h⟩, fun _ _ => heatStep_cur_border (s := s),
    fun _ _ => heatStep_prev_scrolled (s := s), fun _ _ => heatStep_prev_bottom (s := s)⟩

/-- Settles O20: outside the band the stored value is the cooled one, which is at most the average. -/
theorem sparksArePossibleOnlyInTheBand : Obligations.SparksArePossibleOnlyInTheBand := by
  refine fun s => ⟨_, exec_step s, fun r k h => ⟨fun hb => ?_, heatStep_cur_spark h⟩⟩
  have hle := (nsum_toNat s.cfg s.prev h).2
  calc ((heatStep s).cur.read (idx s.cfg r k)).toNat
      = cooledValue false (neighbourSum s.cfg s.prev r k) := by rw [heatStep_cur_interior h, hb, storedValue_false]
    _ ≤ neighbourSum s.cfg s.prev r k / 8 := cooledValue_false_le_average (by omega)

/-- Settles O23: at reset every neighbour sum is 0, which sparks in the band and stays 0 elsewhere. -/
theorem sparksAtTheFirstStep : Obligations.SparksAtTheFirstStep := by
  refine fun c => ⟨_, exec_step _, fun r k hr hk => ?_⟩
  split
  case isTrue h =>
    exact heatStep_cur_spark (s := State.resetOf c) h.1 h.2 (.inl (neighbourSum_eq_zero fun _ _ _ _ => rfl))
  case isFalse h =>
    exact heatStep_cur_eq_zero (s := State.resetOf c) hr hk h rfl fun _ _ _ _ _ => rfl

/-! ### How far heat rises (R112) -/

/-- Under the border invariants `PREV` is cold one row higher than `CUR`, the last row of `PREV` always. -/
theorem State.ColdBorder.prev_eq_zero {s : State} (h : s.ColdBorder) {m q j : Nat}
    (hcur : ∀ r k, r < m → r < s.cfg.h → k < s.cfg.w → s.cur.read (idx s.cfg r k) = 0#8) (hm : q + 1 < m)
    (hq : q < s.cfg.h) (hj : j < s.cfg.w) : s.prev.read (idx s.cfg q j) = 0#8 := by
  by_cases hlast : q + 1 = s.cfg.h
  · exact h.prevBorder q j hq hj (by omega)
  · have hq' : q + 1 < s.cfg.h := by omega
    rw [h.scrolled q j hq' hj, hcur (q + 1) j hm hq' hj]

/-- Settles O24: the neighbours of such a cell are in rows of `PREV` that are scrolled from cold rows of `CUR`. -/
theorem heatRisesAtMostTwoRows : Obligations.HeatRisesAtMostTwoRows := by
  refine fun s m h hcur => ⟨_, exec_step s, fun r k hm hr hk hb => ?_⟩
  exact heatStep_cur_eq_zero (s := s) hr hk (by simp [hb]) (hcur r k (by omega) hr hk)
    fun q j hq hqh hj => h.prev_eq_zero hcur (by omega) hqh hj

/-! ### The degenerate sizes (R113) -/

section

variable {s : State}

theorem heatStep_cur_of_no_interior (h : s.cfg.w < 3 ∨ s.cfg.h < 3) {i : Nat} (hi : i < s.cfg.n) :
    (heatStep s).cur.read i = s.cur.read i := by
  obtain ⟨r, k, hr, hk, rfl⟩ := exists_idx hi
  apply heatStep_cur_border hr hk
  rw [border_iff, interior_iff]
  omega

/-- With one row, that row is the bottom row, which `PREV` keeps. -/
theorem heatStep_prev_of_one_row (h : s.cfg.h = 1) {i : Nat} (hi : i < s.cfg.n) :
    (heatStep s).prev.read i = s.prev.read i := by
  obtain ⟨r, k, hr, hk, rfl⟩ := exists_idx hi
  exact heatStep_prev_bottom (by omega) hk

/-- Without a band the all-zero fields are a fixed point. -/
theorem heatStep_zero_of_no_band (hb : ∀ r, r < s.cfg.h → inBand s.cfg r = false)
    (hz : ∀ i, i < s.cfg.n → s.cur.read i = 0#8 ∧ s.prev.read i = 0#8) {i : Nat} (hi : i < s.cfg.n) :
    (heatStep s).cur.read i = 0#8 ∧ (heatStep s).prev.read i = 0#8 := by
  have hcur : ∀ i, i < s.cfg.n → (heatStep s).cur.read i = 0#8 := fun i hi => by
    obtain ⟨r, k, hr, hk, rfl⟩ := exists_idx hi
    exact heatStep_cur_eq_zero hr hk (by simp [hb r hr]) (hz _ hi).1 fun q j _ hq hj => (hz _ (idx_lt _ hq hj)).2
  refine ⟨hcur i hi, ?_⟩
  rw [read_heatStep_prev s hi]
  split
  · exact hcur _ ‹_›
  · exact (hz i hi).2

end

/-- Settles O25: no interior cell, no row to scroll, no band, nothing but band. -/
theorem degenerateSizes : Obligations.DegenerateSizes := by
  refine fun s => ⟨_, exec_step s, fun h i => heatStep_cur_of_no_interior h,
    fun h i => heatStep_prev_of_one_row h, fun h => ?_, fun h r => ?_⟩
  · have hb : ∀ r, r < s.cfg.h → inBand s.cfg r = false := fun r hr => by
      simpa [inBand, h] using hr
    exact ⟨hb, fun hz i => heatStep_zero_of_no_band hb hz⟩
  · simp only [inBand, decide_eq_true_eq]
    omega

/-! ### What `STEP` depends on (R116) -/

section

variable {c : Config} {prev prev' : Memory 8} (hprev : ∀ i, i < c.n → prev'.read i = prev.read i)
include hprev

/-- Phase 1 reads the cells of `PREV` and the border cells of `CUR`. -/
theorem computePhase_congr {cur cur' : Memory 8}
    (hborder : ∀ r k, r < c.h → k < c.w → border c r k = true → cur'.read (idx c r k) = cur.read (idx c r k)) :
    computePhase c prev' cur' = computePhase c prev cur := by
  refine Memory.ext_read (wf_computePhase _ _ _) (wf_computePhase _ _ _) fun i hi => ?_
  obtain ⟨r, k, hr, hk, rfl⟩ := exists_idx hi
  rw [read_computePhase _ _ _ _ hi, read_computePhase _ _ _ _ hi]
  by_cases h : interiorAt c (idx c r k) = true
  · have hlt := neighbour_lt c h
    have hsum : nsum c prev'.read (idx c r k) = nsum c prev.read (idx c r k) :=
      nsum_congr c fun j hj => hprev j (by omega)
    rw [if_pos h, if_pos h, cellValue, cellValue, hsum]
  · rw [if_neg h, if_neg h, hborder r k hr hk]
    rwa [border_iff, ← interiorAt_idx c hk]

/-- Phase 2 reads the cells of the memories only. -/
theorem scrollPhase_congr (cur : Memory 8) : scrollPhase c cur prev' = scrollPhase c cur prev := by
  refine Memory.ext_read (wf_scrollPhase _ _ _) (wf_scrollPhase _ _ _) fun i hi => ?_
  rw [read_scrollPhase _ _ _ _ hi, read_scrollPhase _ _ _ _ hi, hprev i hi]

end

/-- Settles O21: both phases read no interior cell of the old `CUR`. -/
theorem stepIgnoresTheInteriorOfCur : Obligations.StepIgnoresTheInteriorOfCur := by
  intro s s' hcfg hprev hborder
  have hcur : (heatStep s').cur = (heatStep s).cur := by
    rw [heatStep_cur, heatStep_cur, hcfg, computePhase_congr hprev hborder]
  have hscroll : (heatStep s').prev = (heatStep s).prev := by
    rw [heatStep_prev, heatStep_prev, ← heatStep_cur, ← heatStep_cur, hcur, hcfg, scrollPhase_congr hprev]
  exact ⟨_, _, exec_step s, exec_step s', hcur.symm, hscroll.symm, rfl, rfl, rfl, fun _ _ => heatStep_prev_bottom,
    fun _ _ => heatStep_cur_border⟩

/-! ### Left-right symmetry (spec/90_conflicts.md C1) -/

theorem interior_mirror {c : Config} {r k : Nat} (hk : k < c.w) : interior c r (c.w - 1 - k) = interior c r k := by
  rw [Bool.eq_iff_iff, interior_iff, interior_iff]
  omega

section

variable {s : State} {r k : Nat}

/-- The three columns around a mirrored column are the mirror images of the three columns, right to left. -/
theorem neighbourSum_mirror (h : s.Mirrored) (hi : interior s.cfg r k = true) :
    neighbourSum s.cfg s.prev r (s.cfg.w - 1 - k) = neighbourSum s.cfg s.prev r k := by
  obtain ⟨-, hr, hk1, hk2⟩ := (interior_iff _ _ _).1 hi
  have hleft : s.cfg.w - 1 - k - 1 = s.cfg.w - 1 - (k + 1) := by omega
  have hright : s.cfg.w - 1 - k + 1 = s.cfg.w - 1 - (k - 1) := by omega
  have hcell : ∀ q j, q ≤ r + 1 → j ≤ k + 1 → cellNat s.cfg s.prev q (s.cfg.w - 1 - j) = cellNat s.cfg s.prev q j :=
    fun q j hq hj => congrArg BitVec.toNat (h.prev q j (by omega) (by omega))
  unfold neighbourSum
  rw [hleft, hright, hcell (r - 1) (k + 1), hcell (r - 1) k, hcell (r - 1) (k - 1), hcell r (k + 1), hcell r (k - 1),
    hcell (r + 1) (k + 1), hcell (r + 1) k, hcell (r + 1) (k - 1)] <;> omega

theorem heatStep_cur_mirror (h : s.Mirrored) (hr : r < s.cfg.h) (hk : k < s.cfg.w) :
    (heatStep s).cur.read (idx s.cfg r (s.cfg.w - 1 - k)) = (heatStep s).cur.read (idx s.cfg r k) := by
  have hk' : s.cfg.w - 1 - k < s.cfg.w := by omega
  by_cases hi : interior s.cfg r k = true
  · apply BitVec.eq_of_toNat_eq
    rw [heatStep_cur_interior hi, heatStep_cur_interior ((interior_mirror hk).trans hi), neighbourSum_mirror h hi]
  · have hb : border s.cfg r (s.cfg.w - 1 - k) = true := border_iff.2 (by rwa [interior_mirror hk])
    rw [heatStep_cur_border hr hk (border_iff.2 hi), heatStep_cur_border hr hk' hb, h.cur r k hr hk]

/-- `STEP` keeps the symmetry: a row of `PREV` is scrolled from a symmetric row of `CUR`, or kept. -/
theorem heatStep_mirrored (h : s.Mirrored) : (heatStep s).Mirrored := by
  refine ⟨fun r k => heatStep_cur_mirror (s := s) h, fun r k hr hk => ?_⟩
  rw [heatStep_cfg] at hr hk ⊢
  have hk' : s.cfg.w - 1 - k < s.cfg.w := by omega
  by_cases hlast : r + 1 = s.cfg.h
  · rw [heatStep_prev_bottom hlast hk, heatStep_prev_bottom hlast hk', h.prev r k hr hk]
  · have hr' : r + 1 < s.cfg.h := by omega
    rw [heatStep_prev_scrolled hr' hk, heatStep_prev_scrolled hr' hk', heatStep_cur_mirror h hr' hk]

/-- The symmetry speaks of the build and the heat fields only. -/
theorem State.Mirrored.congr {u : State} (h : s.Mirrored) (hcfg : u.cfg = s.cfg) (hcur : u.cur = s.cur)
    (hprev : u.prev = s.prev) : u.Mirrored := by
  constructor
  · rw [hcfg, hcur]; exact h.cur
  · rw [hcfg, hprev]; exact h.prev

/-- Zero heat fields are symmetric. -/
theorem mirrored_of_empty (hcur : s.cur = []) (hprev : s.prev = []) : s.Mirrored := by
  constructor <;> intros <;> simp [hcur, hprev]

end

/-- Settles O26: the rule reads a cell's left and right neighbours alike. -/
theorem stepKeepsMirrorSymmetry : Obligations.StepKeepsMirrorSymmetry := by
  intro s h
  have hs : s.Mirrored := ⟨fun r k hr hk => (h r k hr hk).1, fun r k hr hk => (h r k hr hk).2⟩
  obtain ⟨hcur, hprev⟩ := heatStep_mirrored hs
  exact ⟨_, exec_step s, fun r k hr hk => ⟨hcur r k hr hk, hprev r k hr hk⟩⟩

/-- Settles O50: `STEP` keeps the symmetry, a `CLEAR` or a `RESET` zeroes the heat fields, and no other move changes
them. -/
theorem mirrorSymmetryKeptByEveryStep : Obligations.MirrorSymmetryKeptByEveryStep :=
  ⟨fun _ => mirrored_of_empty rfl rfl, fun _ _ =>
    step_keeps_heat (fun _ _ h => h.congr) (fun _ => mirrored_of_empty) (fun _ => heatStep_mirrored)⟩

end Sys2Proof.Machine
end

section
/-! SUPPORT. The palette and `RENDER` (spec/41_palette_render.md): the colour of a heat value, what `RENDER` leaves in each
pixel, the word format of a colour, and the fixture palette. -/

namespace Sys2Proof.Machine

/-! ### The colour of a heat value (R130, R133) -/

section

variable {c : Config} {v : Byte}

theorem color_of_lt (h : v.toNat < c.p.entries) : color c v = palAt c v.toNat := if_pos h

theorem color_of_le (h : c.p.entries ≤ v.toNat) : color c v = c.oorColor := if_neg (Nat.not_lt.2 h)

/-- With 256 entries no heat value is out of range (R132). -/
theorem color_p256 (h : c.p = .p256) : color c v = palAt c v.toNat :=
  color_of_lt (by rw [h]; exact v.isLt)

/-- With `OOR_COLOR = PAL[P-1]` a value is clamped to the last entry (R133). -/
theorem color_clamped (h : c.oorColor = palAt c (c.p.entries - 1)) :
    color c v = palAt c (min v.toNat (c.p.entries - 1)) := by
  rcases Nat.lt_or_ge v.toNat c.p.entries with hv | hv
  · rw [color_of_lt hv, Nat.min_eq_left (by omega)]
  · rw [color_of_le hv, h, Nat.min_eq_right (by omega)]

end

/-- Settles O28: the two cases of `color`, the second empty with 256 entries. -/
theorem colourOfAHeatValue : Obligations.ColourOfAHeatValue := fun _ _ =>
  ⟨color_of_lt, color_of_le, color_p256, color_clamped⟩

/-! ### What `RENDER` leaves in `FB` (R135 to R139) -/

section

variable {s : State}

theorem exec_render (s : State) : exec .render s = .next (finish (renderFrame s)) := exec_instr .render s

/-- A pixel below row 0 takes the colour of the cell above it (R136). -/
theorem renderFrame_fb_of_le {i : Nat} (hw : s.cfg.w ≤ i) (hi : i < s.cfg.n) :
    (renderFrame s).fb.read i = color s.cfg (s.cur.read (i - s.cfg.w)) := by
  rw [read_renderFrame s hi, if_pos hw]

theorem renderFrame_fb_succ {r k : Nat} (hr : r + 1 < s.cfg.h) (hk : k < s.cfg.w) :
    (renderFrame s).fb.read (idx s.cfg (r + 1) k) = color s.cfg (s.cur.read (idx s.cfg r k)) := by
  have hi : idx s.cfg (r + 1) k = idx s.cfg r k + s.cfg.w := idx_succ _ _ _
  rw [renderFrame_fb_of_le (by omega) (idx_lt _ hr hk), hi, Nat.add_sub_cancel]

/-- Row 0 keeps what it held (R137). -/
theorem renderFrame_fb_row_zero {k : Nat} (hh : 0 < s.cfg.h) (hk : k < s.cfg.w) :
    (renderFrame s).fb.read (idx s.cfg 0 k) = s.fb.read (idx s.cfg 0 k) := by
  have hlt : idx s.cfg 0 k < s.cfg.w := by simpa [idx] using hk
  rw [read_renderFrame s (idx_lt _ hh hk), if_neg (by omega)]

/-- The pixels that `RENDER` writes depend on the build and on rows `0 .. H-2` of `CUR` (R138). -/
theorem renderFrame_fb_congr {s' : State} (hcfg : s'.cfg = s.cfg)
    (hcur : ∀ r k, r + 1 < s.cfg.h → k < s.cfg.w → s'.cur.read (idx s.cfg r k) = s.cur.read (idx s.cfg r k))
    {i : Nat} (hw : s.cfg.w ≤ i) (hi : i < s.cfg.n) : (renderFrame s').fb.read i = (renderFrame s).fb.read i := by
  obtain ⟨r, k, hr, hk, hrk⟩ := exists_idx (c := s.cfg) (i := i - s.cfg.w) (by omega)
  have hr' : r + 1 < s.cfg.h := (idx_add_w_lt_iff hr hk).1 (by omega)
  rw [renderFrame_fb_of_le hw hi, renderFrame_fb_of_le (hcfg ▸ hw) (hcfg ▸ hi), hcfg, ← hrk, hcur r k hr' hk]

/-- A second `RENDER` stores in every pixel what the first one left there (R139). -/
theorem renderPhase_renderPhase (c : Config) (cur : Memory 8) (fb : Memory 32) :
    renderPhase c cur (renderPhase c cur fb) = renderPhase c cur fb := by
  refine Memory.ext_read (wf_renderPhase _ _ _) (wf_renderPhase _ _ _) fun i hi => ?_
  rw [read_renderPhase _ _ _ _ hi, read_renderPhase _ _ _ _ hi]
  split_ifs <;> rfl

theorem finish_renderFrame_again (s : State) :
    finish (renderFrame (finish (renderFrame s))) = finish (renderFrame s) := by
  have hfb := renderPhase_renderPhase s.cfg s.cur s.fb
  simp only [finish, renderFrame, hfb]

end

/-- Settles O27: `RENDER` changes `FB` only, by the colour of the cell above and not at all in row 0. -/
theorem renderShowsTheCellAbove : Obligations.RenderShowsTheCellAbove := fun s =>
  ⟨_, exec_render s, ⟨rfl, rfl, rfl, rfl⟩, State.idle_of_engine rfl, rfl, rfl, fun _ _ => renderFrame_fb_succ (s := s),
    fun _ => renderFrame_fb_row_zero (s := s)⟩

/-- Settles O29: a rendered pixel reads a cell that has a row below it, and never `FB`. -/
theorem renderIsDeterministicAndRepeatable : Obligations.RenderIsDeterministicAndRepeatable :=
  ⟨fun s s' hcfg hcur => ⟨_, _, exec_render s, exec_render s', fun _ => renderFrame_fb_congr hcfg hcur⟩,
    fun s => ⟨_, exec_render s, (exec_render _).trans (congrArg _ (finish_renderFrame_again s))⟩⟩

/-! ### The word format of a pixel (R130) -/

/-- The format in whole numbers: alpha in bits 7:0, and three bytes above it that are multiples of 4. -/
theorem toNat_of_colourOk {w : Word} (h : colourOk w = true) :
    w.toNat % 256 = 255 ∧ w.toNat / 2 ^ 8 % 4 = 0 ∧ w.toNat / 2 ^ 16 % 4 = 0 ∧ w.toNat / 2 ^ 24 % 4 = 0 := by
  simp only [colourOk, channelOk, alphaOf, redOf, greenOf, blueOf, Bool.and_eq_true, beq_iff_eq, BitVec.toNat_eq,
    BitVec.extractLsb'_toNat, Nat.shiftRight_eq_div_pow, BitVec.toNat_ofNat] at h
  omega

section

variable {c : Config}

/-- The palette and `OOR_COLOR` of an admitted build (R5). -/
theorem palOk_oorOk_of_wf (hc : c.wf = true) : c.palOk = true ∧ colourOk c.oorColor = true := by
  simp only [Config.wf, Bool.and_eq_true] at hc
  obtain ⟨⟨-, hpal⟩, hoor⟩ := hc
  exact ⟨hpal, hoor⟩

/-- The entries of an admitted palette have the word format (R130). -/
theorem colourOk_palAt_of_palOk (hpal : c.palOk = true) {k : Nat} (hk : k < c.p.entries) :
    colourOk (palAt c k) = true := by
  simp only [Config.palOk, Bool.and_eq_true, beq_iff_eq, List.all_eq_true] at hpal
  obtain ⟨⟨hlen, hall⟩, -⟩ := hpal
  have hk' : k < c.pal.length := by omega
  rw [palAt, List.getD_eq_getElem _ _ hk']
  exact hall _ (List.getElem_mem hk')

/-- In an admitted build every colour, `OOR_COLOR` among them, has the word format (R5, R130). -/
theorem colourOk_color_of_wf (hc : c.wf = true) (v : Byte) : colourOk (color c v) = true := by
  obtain ⟨hpal, hoor⟩ := palOk_oorOk_of_wf hc
  rcases Nat.lt_or_ge v.toNat c.p.entries with hv | hv
  · rw [color_of_lt hv]
    exact colourOk_palAt_of_palOk hpal hv
  · rwa [color_of_le hv]

end

/-- Settles O30: a rendered pixel is a colour of the build. -/
theorem renderedPixelsHaveTheWordFormat : Obligations.RenderedPixelsHaveTheWordFormat := by
  refine fun s hc => ⟨_, exec_render s, fun i hw hi => toNat_of_colourOk ?_⟩
  rw [finish_fb, renderFrame_fb_of_le hw hi]
  exact colourOk_color_of_wf hc _

/-! ### The fixture palette (R134) -/

/-- A colour from its base channels as one number (R130). -/
theorem colourOfBase_eq_ofNat {r g b x : Nat} (hg : g < 64) (hb : b < 64)
    (hx : x = 4 * r * 2 ^ 24 + 4 * g * 2 ^ 16 + 4 * b * 2 ^ 8 + 0xFF) : colourOfBase r g b = BitVec.ofNat 32 x := by
  apply BitVec.eq_of_toNat_eq
  simp only [colourOfBase, BitVec.toNat_append, BitVec.toNat_ofNat]
  rw [← Nat.shiftLeft_add_eq_or_of_lt (by omega), ← Nat.shiftLeft_add_eq_or_of_lt (by omega),
    ← Nat.shiftLeft_add_eq_or_of_lt (by omega)]
  simp only [Nat.shiftLeft_eq]
  omega

section

variable {j : Nat}

theorem fixtureColour_black_red (hj : j < 16) : fixtureColour j = BitVec.ofNat 32 (16 * j * 2 ^ 24 + 0xFF) := by
  have hmin : min j 63 = j := by omega
  simp only [fixtureColour, hmin, if_pos hj]
  exact colourOfBase_eq_ofNat (by omega) (by omega) (by omega)

theorem fixtureColour_red_yellow (hj : j < 16) :
    fixtureColour (16 + j) = BitVec.ofNat 32 (0xFC0000FF + 16 * j * 2 ^ 16) := by
  have hmin : min (16 + j) 63 = 16 + j := by omega
  have h16 : ¬ 16 + j < 16 := by omega
  have h32 : 16 + j < 32 := by omega
  simp only [fixtureColour, hmin, if_neg h16, if_pos h32]
  exact colourOfBase_eq_ofNat (by omega) (by omega) (by omega)

theorem fixtureColour_yellow_white (hj : j < 16) :
    fixtureColour (32 + j) = BitVec.ofNat 32 (0xFCFC00FF + 16 * j * 2 ^ 8) := by
  have hmin : min (32 + j) 63 = 32 + j := by omega
  have h16 : ¬ 32 + j < 16 := by omega
  have h32 : ¬ 32 + j < 32 := by omega
  have h48 : 32 + j < 48 := by omega
  simp only [fixtureColour, hmin, if_neg h16, if_neg h32, if_pos h48]
  exact colourOfBase_eq_ofNat (by omega) (by omega) (by omega)

theorem fixtureColour_plateau (hj : 48 ≤ j) : fixtureColour j = 0xFCFCFCFF#32 := by
  have h16 : ¬ min j 63 < 16 := by omega
  have h32 : ¬ min j 63 < 32 := by omega
  have h48 : ¬ min j 63 < 48 := by omega
  simp only [fixtureColour, if_neg h16, if_neg h32, if_neg h48]
  rfl

end

theorem length_palFixture (p : PalSize) : (palFixture p).length = p.entries := by
  rw [palFixture, List.length_map, List.length_range]

theorem palAt_of_palFixture {c : Config} (h : c.pal = palFixture c.p) {k : Nat} (hk : k < c.p.entries) :
    palAt c k = fixtureColour k := by
  have hk' : k < (palFixture c.p).length := by rwa [length_palFixture]
  rw [palAt, h, List.getD_eq_getElem _ _ hk']
  simp only [palFixture, List.getElem_map, List.getElem_range]

/-- Settles O31: the four branches of the ramp on base channels below 64, and the entries of `CFG0`'s palette. -/
theorem fixturePalette : Obligations.FixturePalette :=
  ⟨length_palFixture, fun _ => fixtureColour_black_red, fun _ => fixtureColour_red_yellow,
    fun _ => fixtureColour_yellow_white, fun _ => fixtureColour_plateau, fun _ => palAt_of_palFixture (c := cfg0) rfl⟩

end Sys2Proof.Machine
end

section
/-! SUPPORT. The life of a command (spec/42_control_commands.md): the write of its word to an idle and to a busy block, its
completion, the commands `TICK` and `CLEAR`, and the end of every run. -/

namespace Sys2Proof.Machine

/-! ### The write of a command's word (R153, R174) -/

section

variable {s : State} {i : Instr} {op : CoreOp} {rest : List Turn}

/-- The write of a word to `REG.CMD` at the head of the schedule is handled as a command write. -/
theorem step_commandTurn {w : Word} (hs : s.schedule = commandTurn w :: rest) :
    step s = commandWrite (.write cmdAddr (.word w)) w { s with schedule := rest } := by
  rw [step_of_schedule hs, dropTurn_eq hs]
  exact hostTransaction_write_cmd w _

/-- On an idle block the command starts. -/
theorem step_cmd_idle (hs : s.schedule = cmd i :: rest) (hb : s.busy = false) :
    step s = startCommand i { s with schedule := rest } :=
  (step_commandTurn hs).trans (commandWrite_encode (s := { s with schedule := rest }) _ i hb)

/-- `NOP` changes the response only, at its acceptance (R150). -/
theorem step_cmd_nop (hs : s.schedule = cmd .nop :: rest) (hb : s.busy = false) :
    step s = .next (respondOk { s with schedule := rest }) :=
  (step_cmd_idle hs hb).trans (startCommand_nop _)

/-- Every other command is then in flight (R153). -/
theorem step_cmd_accept (hs : s.schedule = cmd op.instr :: rest) (hb : s.busy = false) :
    step s = .next (accept op (respondOk { s with schedule := rest })) :=
  (step_cmd_idle hs hb).trans (startCommand_instr op _)

/-- A busy block refuses the write with `OVR` and keeps the command in flight (R174). -/
theorem step_cmd_busy (hs : s.schedule = cmd i :: rest) (hb : s.busy = true) :
    ∃ u, step s = .next u ∧ u.answeredErr ∧ SameMemories s u ∧ u.engine = s.engine ∧
      u.flags = { s.flags with ovr := true } :=
  ⟨_, (step_commandTurn hs).trans (commandWrite_busy (s := { s with schedule := rest }) _ _ hb),
    refuse_answeredErr _ _ _, ⟨rfl, rfl, rfl⟩, rfl, rfl⟩

end

/-- Settles O17: `NOP` answers the state it is given, idle after the `OK` of its write; busy, the write is refused. -/
theorem nopDoesNothing : Obligations.NopDoesNothing :=
  ⟨rfl, exec_nop, fun _ _ => step_cmd_nop, fun _ _ => step_cmd_busy⟩

/-! ### The completion (R154) -/

theorem coreTurn_idle {s : State} (hb : s.busy = false) : coreTurn s = .next s := by
  rw [coreTurn, s.not_busy_iff.1 hb]

theorem coreTurn_running {s : State} {op : CoreOp} (he : s.engine = .running op) : coreTurn s = exec op.instr s := by
  rw [coreTurn, he]

/-- With no move left the step is the CORE's turn. -/
theorem step_eq_coreTurn {s : State} (hs : s.schedule = []) : step s = coreTurn s := by
  rw [step, nextMove, hs]

/-- The CORE's scheduled turn while busy is the meaning of the command in flight. -/
theorem step_complete_running {s : State} {op : CoreOp} {rest : List Turn} (hs : s.schedule = .complete :: rest)
    (he : s.engine = .running op) : step s = exec op.instr { s with schedule := rest } := by
  rw [step_of_schedule hs, dropTurn_eq hs]
  exact coreTurn_running (s := { s with schedule := rest }) he

/-- The effect of a command and its end keep all but the memories and the engine. -/
theorem finish_effect_sameControl (op : CoreOp) (s : State) : SameControl s (finish (op.effect s)) := by
  cases op <;> exact ⟨rfl, rfl, rfl, rfl⟩

/-- Settles O35: while busy the CORE's turn is the command in flight, while idle it does nothing. -/
theorem completionAppliesTheCommandInFlight : Obligations.CompletionAppliesTheCommandInFlight := by
  refine ⟨fun s op he => ?_, fun s => coreTurn_idle, rfl, rfl, rfl, rfl⟩
  have hdone := exec_instr op s
  exact ⟨_, (coreTurn_running he).trans hdone, hdone, State.idle_of_engine rfl, finish_effect_sameControl op s⟩

/-! ### The delivery of a command (R153, R154) -/

/-- From the write of its word on an idle block, acceptance and completion are the command's meaning. -/
theorem run_cmd_complete {s : State} {op : CoreOp} {rest : List Turn} (hb : s.busy = false)
    (hs : s.schedule = cmd op.instr :: .complete :: rest) :
    run 2 s = exec op.instr (accept op (respondOk { s with schedule := rest })) := by
  have hdone : step (accept op (respondOk { s with schedule := .complete :: rest })) =
      exec op.instr (accept op (respondOk { s with schedule := rest })) := step_complete_running rfl rfl
  rw [exec_instr] at hdone ⊢
  rw [run_succ (step_cmd_accept hs hb), run_succ hdone, run_zero]

/-- A word of 32 bits is taken as it is. -/
theorem withFetchWord_toNat (s : State) (w : Word) : s.withFetchWord 32 w.toNat = aboutToRun w s := by
  rw [State.withFetchWord, Nat.mod_eq_of_lt w.isLt, BitVec.ofNat_toNat, BitVec.setWidth_eq]

theorem aboutToRun_instr (op : CoreOp) (s : State) :
    aboutToRun (encode op.instr) s = { accept op (respondOk s) with schedule := [] } := by
  cases op <;> rfl

theorem aboutToRun_nop (s : State) :
    aboutToRun (encode .nop) s = { finish s with schedule := [cmd .nop] } := rfl

/-- Settles O39: the delivered command stands accepted and completes in the next step, or is the write of `NOP`; the HOST's
write is the acceptance, and the CORE's turn after it the meaning. -/
theorem stepRunsTheDecodedCommand : Obligations.StepRunsTheDecodedCommand := by
  refine ⟨fun s w i hw => ?_, fun s w op rest hw hb hs => ?_⟩
  · obtain rfl := decode_eq_ok_iff.1 hw
    rw [withFetchWord_toNat]
    obtain rfl | ⟨op, rfl⟩ := instr_eq_nop_or_coreOp i
    · rw [aboutToRun_nop]
      exact ⟨⟨rfl, rfl, rfl⟩, rfl, rfl, fun h => absurd rfl h, fun _ => (step_cmd_nop rfl rfl).trans (exec_nop _).symm⟩
    · rw [aboutToRun_instr]
      exact ⟨⟨rfl, rfl, rfl⟩, rfl, rfl, fun _ => (step_eq_coreTurn rfl).trans (coreTurn_running rfl),
        fun h => by cases op <;> cases h⟩
  · obtain rfl := decode_eq_ok_iff.1 hw
    exact run_cmd_complete hb hs

/-! ### `TICK` (R151) -/

theorem exec_tick (s : State) : exec .tick s = .next (finish (renderFrame (heatStep s))) := exec_instr .tick s

/-- Settles O32: the completion of `STEP` keeps what `RENDER` reads, and acceptance changes only the engine and the
response, which the next acceptance and completion set again. -/
theorem tickIsStepThenRender : Obligations.TickIsStepThenRender := by
  refine ⟨rfl, fun s => ?_, fun s hb => ?_, fun _ _ => step_cmd_busy⟩
  · exact ⟨_, _, exec_step s, exec_render _, exec_tick s, ⟨rfl, rfl, rfl, rfl⟩, State.idle_of_engine rfl, rfl, rfl⟩
  · have haccept := step_cmd_accept (s := { s with schedule := [cmd .tick, .complete] }) (op := .tick) rfl hb
    have htick := (run_cmd_complete (s := { s with schedule := [cmd .tick, .complete] }) (op := .tick) hb rfl).trans
      (exec_tick _)
    have hstep := (run_cmd_complete (s := { s with schedule := [cmd .step, .complete, cmd .render, .complete] })
      (op := .step) hb rfl).trans (exec_step _)
    have hrender := (run_add 2 2 hstep).trans ((run_cmd_complete (op := .render) rfl rfl).trans (exec_render _))
    exact ⟨_, _, _, run_succ haccept 0, State.busy_of_engine rfl, ⟨rfl, rfl, rfl⟩, htick, hrender, rfl⟩

/-! ### `CLEAR` (R152) -/

theorem exec_clear (s : State) : exec .clear s = .next (finish (clearMemories s)) := exec_instr .clear s

/-- The cells that only `CLEAR` and the HOST write hold in `t` what they held in `s`: the bottom row of `PREV`, the border
of `CUR`, row 0 of `FB` (R108, R110, R137). -/
structure KeepsBorders (s t : State) : Prop where
  prevBottom : ∀ r k, r + 1 = s.cfg.h → k < s.cfg.w → t.prev.read (idx s.cfg r k) = s.prev.read (idx s.cfg r k)
  curBorder : ∀ r k, r < s.cfg.h → k < s.cfg.w → border s.cfg r k = true →
    t.cur.read (idx s.cfg r k) = s.cur.read (idx s.cfg r k)
  fbTop : ∀ k, 0 < s.cfg.h → k < s.cfg.w → t.fb.read (idx s.cfg 0 k) = s.fb.read (idx s.cfg 0 k)

theorem heatStep_keepsBorders (s : State) : KeepsBorders s (heatStep s) where
  prevBottom _ _ := heatStep_prev_bottom
  curBorder _ _ := heatStep_cur_border
  fbTop _ _ _ := rfl

theorem renderFrame_keepsBorders (s : State) : KeepsBorders s (renderFrame s) where
  prevBottom _ _ _ _ := rfl
  curBorder _ _ _ _ _ := rfl
  fbTop _ := renderFrame_fb_row_zero

theorem KeepsBorders.trans {s t u : State} (h : KeepsBorders s t) (hcfg : t.cfg = s.cfg) (h' : KeepsBorders t u) :
    KeepsBorders s u := by
  obtain ⟨hprev, hcur, hfb⟩ := h'
  rw [hcfg] at hprev hcur hfb
  exact ⟨fun r k hr hk => (hprev r k hr hk).trans (h.prevBottom r k hr hk),
    fun r k hr hk hb => (hcur r k hr hk hb).trans (h.curBorder r k hr hk hb),
    fun k hh hk => (hfb k hh hk).trans (h.fbTop k hh hk)⟩

/-- Every effect but that of `CLEAR` keeps the borders. -/
theorem CoreOp.effect_keepsBorders {op : CoreOp} (h : op ≠ .clear) (s : State) : KeepsBorders s (op.effect s) := by
  cases op with
  | step => exact heatStep_keepsBorders s
  | render => exact renderFrame_keepsBorders s
  | tick => exact (heatStep_keepsBorders s).trans (heatStep_cfg s) (renderFrame_keepsBorders _)
  | clear => exact absurd rfl h

/-- Every command but `CLEAR` completes and keeps the borders. -/
theorem exec_keepsBorders {i : Instr} (h : i ≠ .clear) (s : State) : ∃ t, exec i s = .next t ∧ KeepsBorders s t := by
  obtain rfl | ⟨op, rfl⟩ := instr_eq_nop_or_coreOp i
  · exact ⟨s, exec_nop s, fun _ _ _ _ => rfl, fun _ _ _ _ _ => rfl, fun _ _ _ => rfl⟩
  · have hop : op ≠ .clear := by
      rintro rfl
      exact h rfl
    obtain ⟨hprev, hcur, hfb⟩ := op.effect_keepsBorders hop s
    exact ⟨_, exec_instr op s, hprev, hcur, hfb⟩

/-- Settles O33: `CLEAR` leaves the memories of reset, and the other effects keep the borders. -/
theorem clearRestoresTheStartUpContents : Obligations.ClearRestoresTheStartUpContents := by
  refine ⟨rfl, fun s => ?_, fun s i hi => ?_, fun _ _ => step_cmd_busy⟩
  · exact ⟨_, exec_clear s, finish_effect_sameControl .clear s, State.idle_of_engine rfl, ⟨rfl, rfl, rfl⟩,
      fun j => ⟨Memory.read_nil j, Memory.read_nil j, Memory.read_nil j⟩⟩
  · obtain ⟨t, ht, hprev, hcur, hfb⟩ := exec_keepsBorders hi s
    exact ⟨t, ht, hprev, hcur, hfb⟩

/-! ### The end of a run (R155, R183, R199) -/

section

variable {s : State}

theorem HostEffect.schedule {u : State} {t : Transaction} (e : HostEffect s t u) : u.schedule = s.schedule := by
  cases e <;> rfl

@[simp] theorem Engine.effect_schedule (e : Engine) (s : State) : (e.effect s).schedule = s.schedule := by
  cases e with
  | idle => rfl
  | running op => exact op.effect_schedule s

/-- With no move left the CORE's turn ends the run. -/
theorem step_of_no_move (hs : s.schedule = []) : ∃ u, step s = .next u ∧ u.runOver :=
  ⟨_, (step_eq_coreTurn hs).trans (coreTurn_eq s), (Engine.effect_schedule _ s).trans hs, State.idle_of_engine rfl⟩

/-- A step takes the move at the head off the schedule, and adds none. -/
theorem step_drops_move {t : Turn} {rest : List Turn} (hs : s.schedule = t :: rest) :
    ∃ u, step s = .next u ∧ u.schedule = rest := by
  have hrest : (dropTurn s).schedule = rest := by rw [dropTurn_eq hs]
  rw [step_of_schedule hs]
  cases t with
  | reset => exact ⟨_, rfl, hrest⟩
  | host x =>
    obtain ⟨u, hu, e⟩ := hostTransaction_effect x (dropTurn s)
    exact ⟨u, hu, e.schedule.trans hrest⟩
  | complete => exact ⟨_, coreTurn_eq _, (Engine.effect_schedule _ _).trans hrest⟩

/-- The moves are taken one by one, then a command still in flight completes. -/
theorem run_ends (moves : List Turn) : ∀ {s : State}, s.schedule = moves →
    ∃ u, run (moves.length + 1) s = .next u ∧ u.runOver := by
  induction moves with
  | nil =>
    intro s hs
    obtain ⟨u, hu, hover⟩ := step_of_no_move hs
    exact ⟨u, run_succ hu 0, hover⟩
  | cons t rest ih =>
    intro s hs
    obtain ⟨u, hu, hrest⟩ := step_drops_move hs
    obtain ⟨v, hv, hover⟩ := ih hrest
    exact ⟨v, (run_succ hu _).trans hv, hover⟩

/-- A block whose run is over waits (R183). -/
theorem step_of_runOver (h : s.runOver) : step s = .next s := by
  obtain ⟨hs, hb⟩ := h
  exact (step_eq_coreTurn hs).trans (coreTurn_idle hb)

theorem run_of_runOver (h : s.runOver) (k : Nat) : run k s = .next s := by
  induction k with
  | zero => rfl
  | succ k ih => exact (run_succ (step_of_runOver h) k).trans ih

end

/-- Settles O36, by induction over the scheduled moves. -/
theorem everyRunComesToItsEnd : Obligations.EveryRunComesToItsEnd := by
  intro s
  obtain ⟨u, hu, hover⟩ := run_ends s.schedule rfl
  exact ⟨u, hu, hover, run_of_runOver hover⟩

end Sys2Proof.Machine
end

section
/-! SUPPORT. The refusals (spec/60_exceptions.md): which transactions are malformed, which flag a refused one sets and
in which order, what a refusal leaves as it is, and that no command and no step stops. -/

namespace Sys2Proof.Machine

/-! ### What an address names, by the number of its space (R50) -/

/-- The number of a space, bits 26:24 of its addresses (R50). -/
def Space.number : Space → Nat
  | .reg => 0
  | .pal => 1
  | .cur => 2
  | .prev => 3
  | .fb => 4

/-- The space that a place is in. -/
def Place.space : Place → Space
  | .reg _ => .reg
  | .pal _ => .pal
  | .cur _ => .cur
  | .prev _ => .prev
  | .fb _ => .fb

section

variable {c : Config} {a : Addr} {n : Size} {p : Place}

theorem space_number_of_spaceOf {sp : Space} (h : spaceOf a = some sp) : a.toNat / 2 ^ 24 = sp.number := by
  rw [spaceOf_eq] at h
  split_ifs at h <;> cases h <;> assumption

theorem spaceOf_eq_none_iff : spaceOf a = none ↔ 5 ≤ a.toNat / 2 ^ 24 := by
  rw [spaceOf_eq]
  split_ifs <;> simp <;> omega

/-! An access to a space, one equation for each. -/

theorem placeOf_unassigned (h : spaceOf a = none) : placeOf c a n = none := by simp [placeOf, h]

theorem placeOf_reg (h : spaceOf a = some .reg) :
    placeOf c a n = if n = .four then (regAt (offOf a)).map .reg else none := by simp [placeOf, h]

theorem placeOf_pal (h : spaceOf a = some .pal) :
    placeOf c a n = (wordElement (offOf a) c.p.entries n).map .pal := by simp [placeOf, h]

theorem placeOf_cur (h : spaceOf a = some .cur) : placeOf c a n = (byteElement (offOf a) c.n n).map .cur := by
  simp [placeOf, h]

theorem placeOf_prev (h : spaceOf a = some .prev) : placeOf c a n = (byteElement (offOf a) c.n n).map .prev := by
  simp [placeOf, h]

theorem placeOf_fb (h : spaceOf a = some .fb) : placeOf c a n = (wordElement (offOf a) c.n n).map .fb := by
  simp [placeOf, h]

/-- The place that an access names is in the space of its address. -/
theorem spaceOf_of_placeOf (h : placeOf c a n = some p) : spaceOf a = some p.space := by
  cases hs : spaceOf a with
  | none => simp [placeOf_unassigned hs] at h
  | some sp =>
    cases sp with
    | reg =>
      rw [placeOf_reg hs] at h
      split at h
      · obtain ⟨r, -, rfl⟩ := Option.map_eq_some_iff.1 h
        rfl
      · cases h
    | pal => obtain ⟨k, -, rfl⟩ := Option.map_eq_some_iff.1 (placeOf_pal hs ▸ h); rfl
    | cur => obtain ⟨i, -, rfl⟩ := Option.map_eq_some_iff.1 (placeOf_cur hs ▸ h); rfl
    | prev => obtain ⟨i, -, rfl⟩ := Option.map_eq_some_iff.1 (placeOf_prev hs ▸ h); rfl
    | fb => obtain ⟨i, -, rfl⟩ := Option.map_eq_some_iff.1 (placeOf_fb hs ▸ h); rfl

theorem space_number_of_placeOf (h : placeOf c a n = some p) : a.toNat / 2 ^ 24 = p.space.number :=
  space_number_of_spaceOf (spaceOf_of_placeOf h)

end

/-! ### The malformed transactions in whole numbers (R52, R53, R55, R172) -/

theorem Size.bytes_eq_one_iff {n : Size} : n.bytes = 1 ↔ n = .one := by cases n <;> decide

theorem Size.bytes_eq_four_iff {n : Size} : n.bytes = 4 ↔ n = .four := by cases n <;> decide

theorem regAt_eq_none_iff {off : Nat} : regAt off = none ↔ off ∉ [0x00, 0x04, 0x08, 0x0C, 0x10, 0x14] := by
  unfold regAt
  split_ifs <;> simp [*]

theorem wordElement_eq_none_iff {off count : Nat} {n : Size} :
    wordElement off count n = none ↔ n.bytes ≠ 4 ∨ off % 4 ≠ 0 ∨ 4 * count ≤ off := by
  rw [wordElement, ite_eq_right_iff, Size.bytes_eq_four_iff.ne]
  simp only [reduceCtorEq, imp_false, not_and_or, not_lt, ne_eq]

theorem byteElement_eq_none_iff {off count : Nat} {n : Size} :
    byteElement off count n = none ↔ n.bytes ≠ 1 ∨ count ≤ off := by
  rw [byteElement, ite_eq_right_iff, Size.bytes_eq_one_iff.ne]
  simp only [reduceCtorEq, imp_false, not_and_or, not_lt, ne_eq]

section

variable {c : Config} {a : Addr} {n : Size} {p : Place}

/-- A read is malformed by its size, alignment, space or offset. -/
theorem isBad_read_iff : (Transaction.read a n).isBad c ↔
    5 ≤ a.toNat / 2 ^ 24 ∨ n.bytes ≠ elementBytes (a.toNat / 2 ^ 24) ∨ (n.bytes = 4 ∧ offOf a % 4 ≠ 0) ∨
    (a.toNat / 2 ^ 24 = 0 ∧ offOf a ∉ [0x00, 0x04, 0x08, 0x0C, 0x10, 0x14]) ∨
    (1 ≤ a.toNat / 2 ^ 24 ∧ elementBytes (a.toNat / 2 ^ 24) * elementCount c (a.toNat / 2 ^ 24) ≤ offOf a) := by
  simp [Transaction.isBad, Transaction.space, Transaction.off, Transaction.addr, Transaction.size, Transaction.isWrite,
    offOf_eq]

/-- A write is malformed as a read of its size is, or by a right it lacks. -/
theorem isBad_write_iff {v : Datum} : (Transaction.write a v).isBad c ↔
    (Transaction.read a v.size).isBad c ∨ a.toNat / 2 ^ 24 = 1 ∨ (a.toNat / 2 ^ 24 = 0 ∧ offOf a ≠ 0x04) := by
  simp [Transaction.isBad, Transaction.space, Transaction.off, Transaction.addr, Transaction.size, Transaction.isWrite,
    offOf_eq, or_assoc]

/-- An access names no place exactly when it is malformed by its size, alignment, space or offset. -/
theorem placeOf_eq_none_iff : placeOf c a n = none ↔ (Transaction.read a n).isBad c := by
  rw [isBad_read_iff]
  cases hs : spaceOf a with
  | none => exact iff_of_true (placeOf_unassigned hs) (.inl (spaceOf_eq_none_iff.1 hs))
  | some sp =>
    rw [space_number_of_spaceOf hs]
    cases sp with
    | reg =>
      rw [placeOf_reg hs, ite_eq_right_iff, Option.map_eq_none_iff, regAt_eq_none_iff, ← Size.bytes_eq_four_iff]
      simp [Space.number, elementBytes]
      omega
    | pal =>
      rw [placeOf_pal hs, Option.map_eq_none_iff, wordElement_eq_none_iff]
      simp [Space.number, elementBytes, elementCount]
      omega
    | cur =>
      rw [placeOf_cur hs, Option.map_eq_none_iff, byteElement_eq_none_iff]
      simp [Space.number, elementBytes, elementCount]
      omega
    | prev =>
      rw [placeOf_prev hs, Option.map_eq_none_iff, byteElement_eq_none_iff]
      simp [Space.number, elementBytes, elementCount]
      omega
    | fb =>
      rw [placeOf_fb hs, Option.map_eq_none_iff, wordElement_eq_none_iff]
      simp [Space.number, elementBytes, elementCount]
      omega

/-- The place that an access names is read-only exactly when it is in `PAL` or a register other than `REG.CMD` (R55). -/
theorem sink_eq_none_iff (h : placeOf c a n = some p) :
    p.sink = none ↔ a.toNat / 2 ^ 24 = 1 ∨ (a.toNat / 2 ^ 24 = 0 ∧ offOf a ≠ 0x04) := by
  rw [space_number_of_placeOf h]
  cases p with
  | reg r =>
    have hr := (placeOf_eq_reg h).2
    by_cases hcmd : r = .cmd
    · subst hcmd
      simp [Place.sink, regAt_eq_cmd hr, Place.space, Space.number]
    · have hoff : offOf a ≠ 0x04 := fun h4 => hcmd (by rw [h4] at hr; exact (Option.some.inj hr).symm)
      simp [Place.sink_reg hcmd, hoff, Place.space, Space.number]
  | pal k => simp [Place.sink, Place.space, Space.number]
  | cur | prev | fb => simp [Place.sink, Place.space, Space.number]

/-- A write names no sink exactly when it is malformed. -/
theorem sinkOf_eq_none_iff {v : Datum} : sinkOf c a v.size = none ↔ (Transaction.write a v).isBad c := by
  rw [isBad_write_iff, ← placeOf_eq_none_iff]
  cases hp : placeOf c a v.size with
  | none => simp [sinkOf, hp]
  | some p => simp [sinkOf_of_placeOf hp, sink_eq_none_iff hp]

end

theorem malformed_iff_isBad (c : Config) (t : Transaction) : malformed c t = true ↔ t.isBad c := by
  cases t with
  | read a n => exact Option.isNone_iff_eq_none.trans placeOf_eq_none_iff
  | write a v => exact Option.isNone_iff_eq_none.trans sinkOf_eq_none_iff

/-- Settles O8: an access is malformed exactly when it names no place, or a write no sink. -/
theorem malformedTransactionsAreBad : Obligations.MalformedTransactionsAreBad :=
  ⟨malformed_iff_isBad, fun s t h => hostTransaction_of_malformed ((malformed_iff_isBad s.cfg t).2 h)⟩

/-! ### What is in a memory (R56) -/

/-- A place and its sink are in the same memory, or both are registers. -/
theorem Sink.inMemory_of_sink {p : Place} {k : Sink} (h : p.sink = some k) : k.inMemory = p.inMemory := by
  cases p with
  | reg r =>
    by_cases hr : r = .cmd
    · subst hr
      cases h
      rfl
    · rw [Place.sink_reg hr] at h
      cases h
  | pal => cases h
  | cur | prev | fb => cases h; rfl

theorem Sink.eq_cmd_of_inMemory {k : Sink} (h : k.inMemory = false) : k = .cmd := by
  cases k with
  | cmd => rfl
  | cur | prev | fb => cases h

section

variable {c : Config} {a : Addr} {n : Size} {v : Datum} {p : Place} {k : Sink}

theorem inMemory_iff_of_placeOf (h : placeOf c a n = some p) : p.inMemory = true ↔ 1 ≤ a.toNat / 2 ^ 24 := by
  rw [space_number_of_placeOf h]
  cases p <;> simp [Place.inMemory, Place.space, Space.number]

theorem inMemory_iff_of_sinkOf (h : sinkOf c a n = some k) : k.inMemory = true ↔ 1 ≤ a.toNat / 2 ^ 24 := by
  obtain ⟨p, hp, hk⟩ := Option.bind_eq_some_iff.1 h
  rw [Sink.inMemory_of_sink hk, inMemory_iff_of_placeOf hp]

theorem exists_placeOf_of_not_isBad (h : ¬ (Transaction.read a n).isBad c) : ∃ p, placeOf c a n = some p :=
  Option.ne_none_iff_exists'.1 (mt placeOf_eq_none_iff.1 h)

theorem exists_sinkOf_of_not_isBad (h : ¬ (Transaction.write a v).isBad c) : ∃ k, sinkOf c a v.size = some k :=
  Option.ne_none_iff_exists'.1 (mt sinkOf_eq_none_iff.1 h)

end

/-! ### The answers to a well-formed write (R51) -/

section

variable {a : Addr} {v : Datum} {s : State} {k : Sink} (h : sinkOf s.cfg a v.size = some k)
include h

theorem memWrite_memory_busy (hm : k.inMemory = true) (hb : s.busy = true) :
    memWrite a v s = .next (refuse .acc (.write a v) s) := by
  simp [memWrite, h, hm, hb]

theorem memWrite_allowed (ha : k.inMemory = false ∨ s.busy = false) :
    memWrite a v s = storeSink (.write a v) v.line s k := by
  rcases ha with ha | ha <;> simp [memWrite, h, ha]

end

/-- A store to an element of a memory is answered `OK`. -/
theorem storeSink_answeredOk {k : Sink} (h : k.inMemory = true) (t : Transaction) (v : Word) (s : State) :
    ∃ u, storeSink t v s k = .next u ∧ u.answeredOk ∧ u.flags = s.flags := by
  cases k with
  | cmd => cases h
  | cur | prev | fb => exact ⟨_, rfl, ⟨_, rfl⟩, rfl⟩

/-- The start of a command is answered `OK`. -/
theorem startCommand_answeredOk (i : Instr) (s : State) :
    ∃ u, startCommand i s = .next u ∧ u.answeredOk ∧ u.flags = s.flags := by
  rcases instr_eq_nop_or_coreOp i with rfl | ⟨op, rfl⟩
  · exact ⟨_, startCommand_nop s, ⟨_, rfl⟩, rfl⟩
  · exact ⟨_, startCommand_instr op s, ⟨_, rfl⟩, rfl⟩

/-! ### The checks after `BAD` (R173 to R176) -/

section

variable {s : State} {t : Transaction} (hbad : ¬ t.isBad s.cfg)
include hbad

/-- A well-formed access to a memory is refused with `ACC` while busy (R173). -/
theorem hostTransaction_memory_busy (hspace : 1 ≤ t.space) (hb : s.busy = true) :
    hostTransaction t s = .next (refuse .acc t s) := by
  cases t with
  | read a n =>
    obtain ⟨p, hp⟩ := exists_placeOf_of_not_isBad hbad
    exact congrArg _ (memRead_memory_busy hp ((inMemory_iff_of_placeOf hp).2 hspace) hb)
  | write a v =>
    obtain ⟨k, hk⟩ := exists_sinkOf_of_not_isBad hbad
    exact memWrite_memory_busy hk ((inMemory_iff_of_sinkOf hk).2 hspace) hb

/-- A well-formed write at the address of `REG.CMD` is handled as a command write. -/
theorem hostTransaction_isCommandWrite (hcmd : t.isCommandWrite) : hostTransaction t s = commandWrite t t.word s := by
  obtain ⟨hwrite, hspace, -⟩ := hcmd
  cases t with
  | read a n => cases hwrite
  | write a v =>
    obtain ⟨k, hk⟩ := exists_sinkOf_of_not_isBad hbad
    have hm : k.inMemory = false := by
      rw [← Bool.not_eq_true, inMemory_iff_of_sinkOf hk, show a.toNat / 2 ^ 24 = 0 from hspace]
      decide
    rw [Sink.eq_cmd_of_inMemory hm] at hk
    exact memWrite_allowed hk (.inl rfl)

/-- A transaction that no check refuses is answered `OK` and keeps the flags. -/
theorem hostTransaction_answeredOk (hmem : 1 ≤ t.space → s.busy = false)
    (hcmd : t.isCommandWrite → s.busy = false ∧ legalWord t.word) :
    ∃ u, hostTransaction t s = .next u ∧ u.answeredOk ∧ u.flags = s.flags := by
  cases t with
  | read a n =>
    obtain ⟨p, hp⟩ := exists_placeOf_of_not_isBad hbad
    have ha : p.inMemory = false ∨ s.busy = false := by
      cases hm : p.inMemory with
      | false => exact .inl rfl
      | true => exact .inr (hmem ((inMemory_iff_of_placeOf hp).1 hm))
    refine ⟨memRead a n s, rfl, ?_⟩
    rw [memRead_allowed hp ha]
    exact ⟨⟨_, rfl⟩, rfl⟩
  | write a v =>
    obtain ⟨k, hk⟩ := exists_sinkOf_of_not_isBad hbad
    cases hm : k.inMemory with
    | true =>
      obtain ⟨u, hu, hok⟩ := storeSink_answeredOk hm (.write a v) v.line s
      exact ⟨u, (memWrite_allowed hk (.inr (hmem ((inMemory_iff_of_sinkOf hk).1 hm)))).trans hu, hok⟩
    | false =>
      rw [Sink.eq_cmd_of_inMemory hm] at hk
      have hwrite := isCommandWrite_of_sinkOf hk
      obtain ⟨hb, i, hi⟩ := hcmd hwrite
      obtain ⟨u, hu, hok⟩ := startCommand_answeredOk i s
      rw [hostTransaction_isCommandWrite hbad hwrite, hi, commandWrite_encode _ i hb]
      exact ⟨u, hu, hok⟩

end

/-- Settles O9: the five cases are a malformed transaction, a memory while busy, a command write while busy, an illegal
word while idle, and the rest. -/
theorem refusalPriority : Obligations.RefusalPriority := by
  refine fun s t => ⟨fun hbad => malformedTransactionsAreBad.2 s t hbad, fun hbad => hostTransaction_memory_busy hbad,
    fun hbad hcmd hb => ?_, fun hbad hcmd hb hw => ?_, fun hbad => hostTransaction_answeredOk hbad⟩
  · rw [hostTransaction_isCommandWrite hbad hcmd, commandWrite_busy _ _ hb]
  · rw [hostTransaction_isCommandWrite hbad hcmd, commandWrite_illegal _ hb hw]

/-! ### A refusal changes only its flag (R171) -/

/-- Only a refusal is answered `ERR`. -/
theorem HostEffect.refused_of_answeredErr {s u : State} {t : Transaction} (e : HostEffect s t u)
    (herr : u.answeredErr) : ∃ f, u = refuse f t s := by
  obtain ⟨d, hd⟩ := herr
  cases e with
  | refused f => exact ⟨f, rfl⟩
  | _ => cases hd

theorem Datum.size_zero (n : Size) : (Datum.zero n).size = n := by cases n <;> rfl

theorem Datum.line_zero (n : Size) : (Datum.zero n).line = 0#32 := by cases n <;> rfl

/-- A refusal responds `ERR`, and a read with data 0 of its size (R171). -/
theorem refusalResponse_err_zero (t : Transaction) :
    ∃ d, some (refusalResponse t) = some { resp := .err, data := d } ∧ (t.isWrite = true → d = none) ∧
      (t.isWrite = false → ∃ v, d = some v ∧ v.size = t.size ∧ v.line = 0#32) := by
  cases t with
  | read a n => exact ⟨_, rfl, nofun, fun _ => ⟨_, rfl, Datum.size_zero n, Datum.line_zero n⟩⟩
  | write a v => exact ⟨_, rfl, fun _ => rfl, nofun⟩

/-- Settles O10: a transaction answered `ERR` is a refusal, which sets its flag and responds. -/
theorem refusedTransactionChangesOnlyItsFlag : Obligations.RefusedTransactionChangesOnlyItsFlag := by
  intro s u t hu herr
  obtain ⟨u', hu', e⟩ := hostTransaction_effect t s
  cases hu'.symm.trans hu
  obtain ⟨f, rfl⟩ := e.refused_of_answeredErr herr
  exact ⟨⟨rfl, rfl, rfl⟩, rfl, rfl, rfl, ⟨f, by simp, fun g hg => by simp [hg]⟩, refusalResponse_err_zero t⟩

/-! ### Nothing stops (R170, R183) -/

theorem exec_eq_next (i : Instr) (s : State) : ∃ t, exec i s = .next t := by
  rcases instr_eq_nop_or_coreOp i with rfl | ⟨op, rfl⟩
  · exact ⟨s, exec_nop s⟩
  · exact ⟨_, exec_instr op s⟩

theorem step_eq_next (s : State) : ∃ u, step s = .next u := by
  cases hs : s.schedule with
  | nil => exact (step_of_no_move hs).imp fun _ => And.left
  | cons t rest => exact (step_drops_move hs).imp fun _ => And.left

/-- Settles O40: every command has an effect, and a step takes the next move or is the CORE's turn. -/
theorem nothingFaults : Obligations.NothingFaults := ⟨exec_eq_next, step_eq_next⟩

/-- Settles O42: with no move left the step is the CORE's turn, which leaves an idle block as it is. -/
theorem idleBlockWaits : Obligations.IdleBlockWaits := fun _ => step_of_runOver

end Sys2Proof.Machine
end

section
/-! SUPPORT. `RESET` in every state (spec/70_reset_and_hazards.md R190, R192) and the pins (R201): the request that asks
for a transaction, the transaction that a request asks for, and the response that a transaction leaves on the port. -/

namespace Sys2Proof.Machine

/-! ### Reset (R190, R192) -/

theorem readReg_assertReset (s : State) (r : Reg) : readReg (assertReset s) r = readReg (State.resetOf s.cfg) r :=
  readReg_schedule (State.resetOf s.cfg) s.schedule r

/-- Settles O5: the step is the assertion of reset, which keeps nothing but the build and the moves to come. -/
theorem resetFromEveryState : Obligations.ResetFromEveryState := fun s _ hs =>
  ⟨_, step_reset hs, ⟨rfl, rfl, rfl⟩, rfl, State.idle_of_engine (assertReset_engine _),
    fun i => ⟨Memory.read_nil i, Memory.read_nil i, Memory.read_nil i⟩, Flags.get_clear, readReg_assertReset (dropTurn s)⟩

/-! ### The size and the data of a request (R201) -/

/-- The `req_size` of a transfer size (R201). -/
def Size.pins : Size → BitVec 2
  | .one => 0#2
  | .two => 1#2
  | .four => 2#2

theorem sizeOfPins_pins (n : Size) : sizeOfPins n.pins = some n := by cases n <;> rfl

theorem bytes_of_sizeOfPins {b : BitVec 2} {n : Size} (h : sizeOfPins b = some n) : n.bytes = 2 ^ b.toNat := by
  unfold sizeOfPins at h
  split_ifs at h with h0 h1 h2 <;> cases h
  · rw [h0]; rfl
  · rw [h1]; rfl
  · rw [h2]; rfl

theorem size_datumOfPins (w : Word) (n : Size) : (datumOfPins w n).size = n := by cases n <;> rfl

/-- A datum is read back from the data line that carries it. -/
theorem datumOfPins_line (v : Datum) : datumOfPins v.line v.size = v := by
  cases v with
  | byte b => exact congrArg Datum.byte (line_byte_truncate b)
  | half b => exact congrArg Datum.half ((BitVec.setWidth_setWidth_of_le b (by decide)).trans (BitVec.setWidth_eq b))
  | word b => rfl

/-- A request carries the low bits of the data line. -/
theorem line_datumOfPins_toNat (w : Word) (n : Size) :
    (datumOfPins w n).line.toNat = w.toNat % 2 ^ (8 * n.bytes) := by
  have hw := w.isLt
  cases n <;> simp only [datumOfPins, Datum.line, Size.bytes, BitVec.truncate_eq_setWidth, BitVec.toNat_setWidth] <;> omega

/-- The bits of the data line above a datum are zero. -/
theorem Datum.line_lt (v : Datum) : v.line.toNat < 2 ^ (8 * v.size.bytes) := by
  rw [← datumOfPins_line v, line_datumOfPins_toNat, size_datumOfPins]
  exact Nat.mod_lt _ (Nat.two_pow_pos _)

/-! ### Requests and transactions (R201) -/

/-- The request pins that ask for a transaction. -/
def Transaction.pins (t : Transaction) : RequestPins where
  valid := true
  write := t.isWrite
  addr := t.addr
  size := t.size.pins
  wdata := t.word

theorem transactionOfPins_pins (t : Transaction) : transactionOfPins t.pins = some t := by
  rw [transactionOfPins_request rfl (sizeOfPins_pins t.size)]
  cases t with
  | read a n => rfl
  | write a v => exact congrArg (some <| Transaction.write a ·) (datumOfPins_line v)

/-- The transaction that a request asks for has the request's kind, address, size and data. -/
theorem request_of_transactionOfPins {q : RequestPins} {t : Transaction} (h : transactionOfPins q = some t) :
    q.valid = true ∧ t.isWrite = q.write ∧ t.addr = q.addr ∧ sizeOfPins q.size = some t.size ∧
      (t.isWrite = true → t.word = (datumOfPins q.wdata t.size).line) := by
  cases hv : q.valid with
  | false => simp [transactionOfPins_no_request hv] at h
  | true =>
    cases hn : sizeOfPins q.size with
    | none => simp [transactionOfPins, hn] at h
    | some n =>
      rw [transactionOfPins_request hv hn] at h
      cases hw : q.write <;> simp only [hw, if_true, if_false, Bool.false_eq_true, Option.some.injEq] at h <;> subst h
      · exact ⟨rfl, rfl, rfl, rfl, nofun⟩
      · refine ⟨rfl, rfl, rfl, congrArg some (size_datumOfPins _ n).symm, fun _ => ?_⟩
        simp only [Transaction.word, Transaction.size, size_datumOfPins]

theorem turnOfPins_of_rst {p : InputPins} (h : p.rst = true) : turnOfPins p = some .reset := by simp [turnOfPins, h]

theorem turnOfPins_of_no_rst {p : InputPins} (h : p.rst = false) :
    turnOfPins p = (transactionOfPins p.req).map .host := by simp [turnOfPins, h]

theorem transaction_of_turnOfPins {p : InputPins} {t : Transaction} (h : turnOfPins p = some (.host t)) :
    p.rst = false ∧ transactionOfPins p.req = some t := by
  cases hr : p.rst with
  | true => cases (turnOfPins_of_rst hr).symm.trans h
  | false =>
    obtain ⟨t', ht', e⟩ := Option.map_eq_some_iff.1 ((turnOfPins_of_no_rst hr).symm.trans h)
    cases e
    exact ⟨rfl, ht'⟩

/-! ### The response on the port (R51, R201) -/

/-- A read's response carries data of the read's size, refused or not. -/
theorem memRead_rsp (a : Addr) (n : Size) (s : State) :
    ∃ r v, (memRead a n s).rsp = some { resp := r, data := some v } ∧ v.size = n := by
  rcases memRead_cases a n s with ⟨-, h⟩ | ⟨p, -, -, -, h⟩ | ⟨p, hp, -, h⟩ <;> rw [h]
  · exact ⟨_, _, rfl, Datum.size_zero n⟩
  · exact ⟨_, _, rfl, Datum.size_zero n⟩
  · exact ⟨_, _, rfl, readPlace_size hp⟩

/-- A write's response carries no data. -/
theorem HostEffect.rsp_of_write {s u : State} {a : Addr} {v : Datum} (e : HostEffect s (.write a v) u) :
    ∃ r, u.rsp = some { resp := r, data := none } := by
  cases e with
  | readOk a n v h => cases h
  | _ => exact ⟨_, rfl⟩

/-- Every transaction leaves a response: a write's without data, a read's with data of the read's size. -/
theorem hostTransaction_rsp {s u : State} {t : Transaction} (hu : hostTransaction t s = .next u) :
    ∃ r, u.rsp = some r ∧ (t.isWrite = true → r.data = none) ∧ ∀ v, r.data = some v → v.size = t.size := by
  cases t with
  | read a n =>
    cases hu
    obtain ⟨r, v, h, hv⟩ := memRead_rsp a n s
    exact ⟨_, h, nofun, fun _ e => Option.some.inj e ▸ hv⟩
  | write a v =>
    obtain ⟨u', hu', e⟩ := hostTransaction_effect (.write a v) s
    cases hu'.symm.trans hu
    obtain ⟨r, h⟩ := e.rsp_of_write
    exact ⟨_, h, fun _ => rfl, nofun⟩

section

variable {s : State} {r : Response} (h : s.rsp = some r)
include h

theorem responsePins_valid : (responsePins s).valid = true := by rw [responsePins_some h]

theorem responsePins_err_iff : (responsePins s).err = true ↔ s.answeredErr := by
  obtain ⟨d, v⟩ := r
  rw [responsePins_some h, State.answeredErr, h]
  cases d <;> simp

theorem responsePins_rdata_of_no_data (hd : r.data = none) : (responsePins s).rdata = 0#32 := by
  rw [responsePins_some h, hd]
  rfl

theorem responsePins_rdata {v : Datum} (hd : r.data = some v) : (responsePins s).rdata = v.line := by
  rw [responsePins_some h, hd]
  rfl

end

/-- Settles O49: each transaction has its request, each request its transaction, and the response port shows the response
that every transaction leaves. -/
theorem pinsCarryEveryMove : Obligations.PinsCarryEveryMove := by
  refine ⟨fun p => ⟨turnOfPins_of_rst, fun hrst hv => ?_⟩, fun t => ⟨⟨false, t.pins⟩, rfl, rfl, ?_⟩, fun p t ht => ?_,
    fun s u t hu => ?_⟩
  · rw [turnOfPins_of_no_rst hrst, transactionOfPins_no_request hv]
    rfl
  · rw [turnOfPins_request, transactionOfPins_pins]
    rfl
  · obtain ⟨hrst, hq⟩ := transaction_of_turnOfPins ht
    obtain ⟨hv, hkind, haddr, hsize, hword⟩ := request_of_transactionOfPins hq
    refine ⟨hrst, hv, hkind, haddr, bytes_of_sizeOfPins hsize, fun hw => ?_⟩
    rw [hword hw, line_datumOfPins_toNat]
  · obtain ⟨r, hr, hwrite, hsize⟩ := hostTransaction_rsp hu
    refine ⟨responsePins_valid hr, responsePins_err_iff hr, rfl, ?_,
      fun hw => responsePins_rdata_of_no_data hr (hwrite hw), fun d v h => responsePins_rdata h rfl⟩
    rw [outputPins_rsp]
    cases hd : r.data with
    | none =>
      rw [responsePins_rdata_of_no_data hr hd]
      exact Nat.two_pow_pos _
    | some v =>
      rw [responsePins_rdata hr hd, ← hsize v hd]
      exact v.line_lt

end Sys2Proof.Machine
end
